-- ==== Sys2Proof/Word.lean ====
section
/-! DEFINITION. The widths of the hardware's values (rules R10, R20, R23, R24, R70): every value is an unsigned bit vector. -/

namespace Sys2Proof

/-- A nibble: a register number, a key number, a sprite height or an opcode class (rules R20, R36, R71). -/
abbrev Nibble := BitVec 4

/-- A byte: a general register, a timer, a memory cell or the immediate `kk` (rules R20, R26, R27, R28, R71). -/
abbrev Byte := BitVec 8

/-- A memory address, the index register or the immediate `nnn`: 12 bits, so always in [0, 0xFFF] (rules R24, R50, R71). -/
abbrev Addr := BitVec 12

/-- A program-counter value or an instruction word: 16 bits (rules R23, R70). -/
abbrev Word := BitVec 16

end Sys2Proof
end

