-- ==== Sys2Proof/Syntax.lean ====
section
/-! DEFINITION. The 34 instructions of rule R75, one constructor per row of spec/opcode_table.json, carrying only the
operand fields each needs (rules R72, R83). -/

namespace Sys2Proof

/-- A decoded instruction. Each docstring gives the row's mnemonic, its pattern and its rule. -/
inductive Instr
  /-- `CLS`, 00E0 (R190). -/
  | clearScreen
  /-- `RET`, 00EE (R103). -/
  | ret
  /-- `JP nnn`, 1nnn (R104). -/
  | jump (nnn : Addr)
  /-- `CALL nnn`, 2nnn (R102). -/
  | call (nnn : Addr)
  /-- `SE Vx, kk`, 3xkk (R105). -/
  | skipEqLiteral (x : Nibble) (kk : Byte)
  /-- `SNE Vx, kk`, 4xkk (R106). -/
  | skipNeLiteral (x : Nibble) (kk : Byte)
  /-- `SE Vx, Vy`, 5xy0 (R107). -/
  | skipEqReg (x y : Nibble)
  /-- `LD Vx, kk`, 6xkk (R121). -/
  | loadLiteral (x : Nibble) (kk : Byte)
  /-- `ADD Vx, kk`, 7xkk (R122). -/
  | addLiteral (x : Nibble) (kk : Byte)
  /-- `LD Vx, Vy`, 8xy0 (R123). -/
  | move (x y : Nibble)
  /-- `OR Vx, Vy`, 8xy1 (R125). -/
  | or (x y : Nibble)
  /-- `AND Vx, Vy`, 8xy2 (R126). -/
  | and (x y : Nibble)
  /-- `XOR Vx, Vy`, 8xy3 (R127). -/
  | xor (x y : Nibble)
  /-- `ADD Vx, Vy`, 8xy4 (R128). -/
  | add (x y : Nibble)
  /-- `SUB Vx, Vy`, 8xy5 (R129). -/
  | sub (x y : Nibble)
  /-- `SHR Vx, Vy`, 8xy6 (R133). -/
  | shiftRight (x y : Nibble)
  /-- `SUBN Vx, Vy`, 8xy7 (R134). -/
  | subReverse (x y : Nibble)
  /-- `SHL Vx, Vy`, 8xyE (R136). -/
  | shiftLeft (x y : Nibble)
  /-- `SNE Vx, Vy`, 9xy0 (R108). -/
  | skipNeReg (x y : Nibble)
  /-- `LD I, nnn`, Annn (R150). -/
  | loadIndex (nnn : Addr)
  /-- `JP V0, nnn`, Bnnn (R109). -/
  | jumpOffset (nnn : Addr)
  /-- `RND Vx, kk`, Cxkk (R138). -/
  | random (x : Nibble) (kk : Byte)
  /-- `DRW Vx, Vy, n`, Dxyn (R191). -/
  | draw (x y n : Nibble)
  /-- `SKP Vx`, Ex9E (R173). -/
  | skipKeyPressed (x : Nibble)
  /-- `SKNP Vx`, ExA1 (R174). -/
  | skipKeyNotPressed (x : Nibble)
  /-- `LD Vx, DT`, Fx07 (R170). -/
  | loadDelay (x : Nibble)
  /-- `LD Vx, K`, Fx0A (R175). -/
  | waitKey (x : Nibble)
  /-- `LD DT, Vx`, Fx15 (R171). -/
  | setDelay (x : Nibble)
  /-- `LD ST, Vx`, Fx18 (R172). -/
  | setSound (x : Nibble)
  /-- `ADD I, Vx`, Fx1E (R151). -/
  | addIndex (x : Nibble)
  /-- `LD F, Vx`, Fx29 (R153). -/
  | fontAddress (x : Nibble)
  /-- `LD B, Vx`, Fx33 (R154). -/
  | storeBcd (x : Nibble)
  /-- `LD [I], Vx`, Fx55 (R155). -/
  | storeRegisters (x : Nibble)
  /-- `LD Vx, [I]`, Fx65 (R156). -/
  | loadRegisters (x : Nibble)
deriving DecidableEq, Repr

end Sys2Proof
end

