-- ==== Sys2Proof/WellFormed.lean ====
section
/-! DEFINITION. Which instruction terms exist in a machine. The operand fields' ranges (rule R72) are the fields' types,
so the one check left is the presence of class C (rule R78). -/

namespace Sys2Proof

/-- The instruction exists in a machine whose `RND_PRESENT` is `rndPresent` (rules R78, R83). -/
def Instr.wellFormed (rndPresent : Bool) : Instr → Bool
  | .random _ _ => rndPresent
  | .clearScreen | .ret | .jump _ | .call _ | .skipEqLiteral _ _ | .skipNeLiteral _ _ | .skipEqReg _ _ => true
  | .loadLiteral _ _ | .addLiteral _ _ | .move _ _ | .or _ _ | .and _ _ | .xor _ _ | .add _ _ | .sub _ _ => true
  | .shiftRight _ _ | .subReverse _ _ | .shiftLeft _ _ | .skipNeReg _ _ | .loadIndex _ | .jumpOffset _ => true
  | .draw _ _ _ | .skipKeyPressed _ | .skipKeyNotPressed _ | .loadDelay _ | .waitKey _ | .setDelay _ => true
  | .setSound _ | .addIndex _ | .fontAddress _ | .storeBcd _ | .storeRegisters _ | .loadRegisters _ => true

end Sys2Proof
end

