-- ==== Sys2Proof/Decode.lean ====
section
/-! DEFINITION. The instruction decoder of rules R70 to R83, total on every word and on every byte list, and the encoder
of rule R84. Big-endian (rule R54): the first byte is bits 15:8 of the word. -/

namespace Sys2Proof

/-- The opcode class `w[15:12]` (rule R71). -/
def fieldClass (w : Word) : Nibble := w.extractLsb' 12 4

/-- The field `x`, `w[11:8]` (rule R71; conflict C1: four bits). -/
def fieldX (w : Word) : Nibble := w.extractLsb' 8 4

/-- The field `y`, `w[7:4]` (rule R71). -/
def fieldY (w : Word) : Nibble := w.extractLsb' 4 4

/-- The field `n`, `w[3:0]` (rule R71). -/
def fieldN (w : Word) : Nibble := w.extractLsb' 0 4

/-- The field `kk`, `w[7:0]` (rule R71). -/
def fieldKk (w : Word) : Byte := w.extractLsb' 0 8

/-- The field `nnn`, `w[11:0]` (rule R71). -/
def fieldNnn (w : Word) : Addr := w.extractLsb' 0 12

/-- Class 0 decodes two whole words (rule R76). -/
def decodeClass0 (w : Word) : Option Instr :=
  if w = 0x00E0#16 then some .clearScreen else if w = 0x00EE#16 then some .ret else none

/-- Class 8 dispatches on the low nibble; nine values decode (rule R79; conflict C2). -/
def decodeClass8 (w : Word) : Option Instr :=
  match fieldN w with
  | 0x0#4 => some (.move (fieldX w) (fieldY w))
  | 0x1#4 => some (.or (fieldX w) (fieldY w))
  | 0x2#4 => some (.and (fieldX w) (fieldY w))
  | 0x3#4 => some (.xor (fieldX w) (fieldY w))
  | 0x4#4 => some (.add (fieldX w) (fieldY w))
  | 0x5#4 => some (.sub (fieldX w) (fieldY w))
  | 0x6#4 => some (.shiftRight (fieldX w) (fieldY w))
  | 0x7#4 => some (.subReverse (fieldX w) (fieldY w))
  | 0xE#4 => some (.shiftLeft (fieldX w) (fieldY w))
  | _ => none

/-- Class E dispatches on the low byte (rule R80). -/
def decodeClassE (w : Word) : Option Instr :=
  match fieldKk w with
  | 0x9E#8 => some (.skipKeyPressed (fieldX w))
  | 0xA1#8 => some (.skipKeyNotPressed (fieldX w))
  | _ => none

/-- Class F dispatches on the low byte (rule R81). -/
def decodeClassF (w : Word) : Option Instr :=
  match fieldKk w with
  | 0x07#8 => some (.loadDelay (fieldX w))
  | 0x0A#8 => some (.waitKey (fieldX w))
  | 0x15#8 => some (.setDelay (fieldX w))
  | 0x18#8 => some (.setSound (fieldX w))
  | 0x1E#8 => some (.addIndex (fieldX w))
  | 0x29#8 => some (.fontAddress (fieldX w))
  | 0x33#8 => some (.storeBcd (fieldX w))
  | 0x55#8 => some (.storeRegisters (fieldX w))
  | 0x65#8 => some (.loadRegisters (fieldX w))
  | _ => none

/-- `decode(w)` (rules R73 to R83): dispatch on the class, then within the class; `none` is the decode failure.
`rndPresent` is `RND_PRESENT`, the one parameter the decoder depends on (rules R78, R83). -/
def decode (rndPresent : Bool) (w : Word) : Option Instr :=
  match fieldClass w with
  | 0x0#4 => decodeClass0 w
  | 0x1#4 => some (.jump (fieldNnn w))
  | 0x2#4 => some (.call (fieldNnn w))
  | 0x3#4 => some (.skipEqLiteral (fieldX w) (fieldKk w))
  | 0x4#4 => some (.skipNeLiteral (fieldX w) (fieldKk w))
  | 0x5#4 => if fieldN w = 0x0#4 then some (.skipEqReg (fieldX w) (fieldY w)) else none
  | 0x6#4 => some (.loadLiteral (fieldX w) (fieldKk w))
  | 0x7#4 => some (.addLiteral (fieldX w) (fieldKk w))
  | 0x8#4 => decodeClass8 w
  | 0x9#4 => if fieldN w = 0x0#4 then some (.skipNeReg (fieldX w) (fieldY w)) else none
  | 0xA#4 => some (.loadIndex (fieldNnn w))
  | 0xB#4 => some (.jumpOffset (fieldNnn w))
  | 0xC#4 => if rndPresent then some (.random (fieldX w) (fieldKk w)) else none
  | 0xD#4 => some (.draw (fieldX w) (fieldY w) (fieldN w))
  | 0xE#4 => decodeClassE w
  | 0xF#4 => decodeClassF w
  | _ => none

/-- The word whose high byte is `hi` and whose low byte is `lo` (rules R51, R54). -/
def wordOfBytes (hi lo : Byte) : Word := hi ++ lo

/-- The high byte of a word, stored at the lower address (rule R54). -/
def highByte (w : Word) : Byte := w.extractLsb' 8 8

/-- The low byte of a word, stored at the higher address (rule R54). -/
def lowByte (w : Word) : Byte := w.extractLsb' 0 8

/-- Decode the first instruction of a byte list: the instruction and the bytes after it. Every instruction is two bytes
(rule R70); fewer bytes, or a word of no instruction, are refused. -/
def decodeBytes (rndPresent : Bool) : List Byte → Option (Instr × List Byte)
  | hi :: lo :: rest => (decode rndPresent (wordOfBytes hi lo)).map (fun i => (i, rest))
  | [_] => none
  | [] => none

/-- Format `FA` (rule R72): class and address. -/
def packAddr (c : Nibble) (nnn : Addr) : Word := c ++ nnn

/-- Format `FI` (rule R72), and `FX` with its function byte: class, register and byte. -/
def packByte (c x : Nibble) (kk : Byte) : Word := c ++ x ++ kk

/-- Formats `FR` and `FD` (rule R72): class, two registers and a nibble. -/
def packRegs (c x y n : Nibble) : Word := c ++ x ++ y ++ n

/-- The word of an instruction (rule R84): the row's fixed bits with the fields in the positions of rule R71. -/
def encode : Instr → Word
  | .clearScreen => 0x00E0#16
  | .ret => 0x00EE#16
  | .jump nnn => packAddr 0x1#4 nnn
  | .call nnn => packAddr 0x2#4 nnn
  | .skipEqLiteral x kk => packByte 0x3#4 x kk
  | .skipNeLiteral x kk => packByte 0x4#4 x kk
  | .skipEqReg x y => packRegs 0x5#4 x y 0x0#4
  | .loadLiteral x kk => packByte 0x6#4 x kk
  | .addLiteral x kk => packByte 0x7#4 x kk
  | .move x y => packRegs 0x8#4 x y 0x0#4
  | .or x y => packRegs 0x8#4 x y 0x1#4
  | .and x y => packRegs 0x8#4 x y 0x2#4
  | .xor x y => packRegs 0x8#4 x y 0x3#4
  | .add x y => packRegs 0x8#4 x y 0x4#4
  | .sub x y => packRegs 0x8#4 x y 0x5#4
  | .shiftRight x y => packRegs 0x8#4 x y 0x6#4
  | .subReverse x y => packRegs 0x8#4 x y 0x7#4
  | .shiftLeft x y => packRegs 0x8#4 x y 0xE#4
  | .skipNeReg x y => packRegs 0x9#4 x y 0x0#4
  | .loadIndex nnn => packAddr 0xA#4 nnn
  | .jumpOffset nnn => packAddr 0xB#4 nnn
  | .random x kk => packByte 0xC#4 x kk
  | .draw x y n => packRegs 0xD#4 x y n
  | .skipKeyPressed x => packByte 0xE#4 x 0x9E#8
  | .skipKeyNotPressed x => packByte 0xE#4 x 0xA1#8
  | .loadDelay x => packByte 0xF#4 x 0x07#8
  | .waitKey x => packByte 0xF#4 x 0x0A#8
  | .setDelay x => packByte 0xF#4 x 0x15#8
  | .setSound x => packByte 0xF#4 x 0x18#8
  | .addIndex x => packByte 0xF#4 x 0x1E#8
  | .fontAddress x => packByte 0xF#4 x 0x29#8
  | .storeBcd x => packByte 0xF#4 x 0x33#8
  | .storeRegisters x => packByte 0xF#4 x 0x55#8
  | .loadRegisters x => packByte 0xF#4 x 0x65#8

/-- The bytes of an instruction as memory holds them, the first at the lower address (rules R51, R54). -/
def encodeBytes (i : Instr) : List Byte := [highByte (encode i), lowByte (encode i)]

/-- The two bytes, as memory holds them, of a table word of `nbits` bits whose other bits are zero. -/
def tableBytes (nbits w : Nat) : List Byte :=
  [highByte (BitVec.ofNat 16 (w % 2 ^ nbits)), lowByte (BitVec.ofNat 16 (w % 2 ^ nbits))]

/-- The instruction the decoder of this hardware (`RND_PRESENT = true`, rule R7) reads from a word of the opcode table. -/
def decodeTableWord (nbits w : Nat) : Option Instr := (decodeBytes true (tableBytes nbits w)).map Prod.fst

end Sys2Proof
end

