-- ==== Sys2Proof/Config.lean ====
section
/-! DEFINITION. The implementation parameters of rule R7 (their types, and the record that holds them), the four OPEN
parameters' values as constants without a body, and the sampled inputs of rules R35 to R38 as free values. -/

namespace Sys2Proof

/-- `SHIFT_QUIRK` (rules R7, R132): which register a shift reads. -/
inductive ShiftQuirk
  | inPlace
  | fromVy
deriving DecidableEq, Repr, Inhabited

/-- `JUMP_QUIRK` (rules R7, R109): which register a jump with offset adds. -/
inductive JumpQuirk
  | v0
  | vx
deriving DecidableEq, Repr, Inhabited

/-- `ADD_I_OVERFLOW` (rules R7, R151): what `I` becomes when the index add leaves the address range. -/
inductive AddIOverflow
  | wrap
  | saturate
deriving DecidableEq, Repr, Inhabited

/-- `MEM_OOB` (rules R7, R53): what a data access past the end of memory does. -/
inductive MemOob
  | fault
  | wrap
deriving DecidableEq, Repr, Inhabited

/-- `VF_ORDER` (rules R7, R124): which of the flag and the result is written first. -/
inductive VfOrder
  | flagThenResult
  | resultThenFlag
deriving DecidableEq, Repr, Inhabited

/-- `FONT_DATA` (rules R7, R57): the 80 bytes of the font region, 0x050 to 0x09F, from its lowest address up. -/
abbrev Font := Vector Byte 80

/-- The configuration of one machine (rules R7, R8): the parameters of rule R7 that take more than one value. -/
structure Params where
  /-- `STACK_DEPTH`: `none` is the unbounded stack. -/
  stackDepth : Option Nat
  /-- `RND_PRESENT`: whether class C decodes (rule R78). -/
  rndPresent : Bool
  shiftQuirk : ShiftQuirk
  jumpQuirk : JumpQuirk
  /-- `ADD_I_VF`: `true` is `on`. -/
  addIVf : Bool
  addIOverflow : AddIOverflow
  memOob : MemOob
  vfOrder : VfOrder
  /-- `FONT_GLYPH_BYTES`, a parameter by D3: below 256, so that every glyph address is an address (log entry 16). -/
  fontGlyphBytes : Fin 256
  /-- `FONT_DATA`, a parameter by D3: what the font region holds at reset. -/
  fontData : Font
deriving DecidableEq, Repr

/-- The built machine's `SHIFT_QUIRK`, OPEN in rule R7: no value can be proved of it. -/
opaque Config.shiftQuirk : ShiftQuirk

/-- The built machine's `JUMP_QUIRK`, OPEN in rule R7. -/
opaque Config.jumpQuirk : JumpQuirk

/-- The built machine's `ADD_I_VF`, OPEN in rule R7 (`true` is `on`). -/
opaque Config.addIVf : Bool

/-- The built machine's `ADD_I_OVERFLOW`, OPEN in rule R7. -/
opaque Config.addIOverflow : AddIOverflow

/-- The key-held input (rule R36) at sampling number `n`: a free value. -/
opaque Config.keyDown : Nat → Nibble → Bool

/-- The key-press input (rule R37) at sampling number `n`: a free value, `none` or a key. -/
opaque Config.keyEvent : Nat → Option Nibble

/-- The entropy input (rule R38) at sampling number `n`: a free value. -/
opaque Config.rndByte : Nat → Byte

end Sys2Proof
end

