-- ==== Sys2Proof/Machine/Parameters.lean ====
section
/-! DEFINITION. The values this hardware gives the parameters of rule R7, and the font bytes of rule R57. -/

namespace Sys2Proof.Machine

/-- `MEM_SIZE` (rule R7). -/
def memSize : Nat := 4096

/-- `PROG_BASE` (rules R7, R39, R243): where `pc` starts and where a program is loaded. -/
def progBase : Nat := 0x200

/-- `FONT_BASE` (rules R7, R56). -/
def fontBase : Nat := 0x050

/-- The glyphs of rule R57: 0 to F, five bytes each, top row first. -/
def glyphBytes : List Byte :=
  [0xF0, 0x90, 0x90, 0x90, 0xF0] ++ [0x20, 0x60, 0x20, 0x20, 0x70] ++
  [0xF0, 0x10, 0xF0, 0x80, 0xF0] ++ [0xF0, 0x10, 0xF0, 0x10, 0xF0] ++
  [0x90, 0x90, 0xF0, 0x10, 0x10] ++ [0xF0, 0x80, 0xF0, 0x10, 0xF0] ++
  [0xF0, 0x80, 0xF0, 0x90, 0xF0] ++ [0xF0, 0x10, 0x20, 0x40, 0x40] ++
  [0xF0, 0x90, 0xF0, 0x90, 0xF0] ++ [0xF0, 0x90, 0xF0, 0x10, 0xF0] ++
  [0xF0, 0x90, 0xF0, 0x90, 0x90] ++ [0xE0, 0x90, 0xE0, 0x90, 0xE0] ++
  [0xF0, 0x80, 0x80, 0x80, 0xF0] ++ [0xE0, 0x90, 0x90, 0x90, 0xE0] ++
  [0xF0, 0x80, 0xF0, 0x80, 0xF0] ++ [0xF0, 0x80, 0xF0, 0x80, 0x80]

/-- This hardware's `FONT_DATA` (rules R7, R57). -/
def hexFont : Font := ⟨glyphBytes.toArray, rfl⟩

/-- The configuration of this hardware (rule R7): the fixed parameters at their values, the four OPEN ones at constants
of which nothing can be proved. -/
def thisHardware : Params where
  stackDepth := some 16
  rndPresent := true
  shiftQuirk := Config.shiftQuirk
  jumpQuirk := Config.jumpQuirk
  addIVf := Config.addIVf
  addIOverflow := Config.addIOverflow
  memOob := .fault
  vfOrder := .flagThenResult
  fontGlyphBytes := 5
  fontData := hexFont

end Sys2Proof.Machine
end

