-- ==== Sys2Proof/Machine/State.lean ====
section
/-! DEFINITION. The machine state of 10_state.md as plain data, the reasons a step can stop, and the state after reset. -/

namespace Sys2Proof.Machine

/-- Memory (rule R26): the bytes that differ from their reset contents (rule R39), by strictly rising address. -/
abbrev Memory := List Host.Cell

/-- The framebuffer (rule R32): 32 rows, top first, of 64 pixels, left first; `true` is a set pixel. -/
abbrev Framebuffer := Vector (Vector Bool 64) 32

/-- The fault causes of rule R211. -/
inductive FaultCode
  /-- Code 1: fetch with `pc + 1 > 0xFFF` (R217). -/
  | fetchOutOfRange
  /-- Code 2: a word of no instruction (R214). -/
  | decodeFailure
  /-- Code 3: RET with an empty stack (R215). -/
  | stackUnderflow
  /-- Code 4: CALL with a full stack (R216). -/
  | stackOverflow
  /-- Code 5: a data run that leaves memory under `MEM_OOB = fault` (R218). -/
  | dataOutOfRange
deriving DecidableEq, Repr

/-- The `info` of a `DataOutOfRange` record (rules R211, R218): the run's base `I` and its length in bytes. -/
structure DataInfo where
  base : Addr
  len : Nat
deriving DecidableEq, Repr

/-- The fault record `{code, pc, word, info}` of rule R211. -/
structure FaultRecord where
  code : FaultCode
  /-- The address of the faulting instruction. -/
  pc : Word
  /-- Its word, or `none` when the fetch itself failed. -/
  word : Option Word
  /-- `none` except for code 5. -/
  info : Option DataInfo
deriving DecidableEq, Repr

/-- The whole machine. Every field but the last two is a piece of state of 10_state.md; `cfg` is the configuration the
source wants held beside the machine state (rules R8, R40), and `samples` is the model's own. -/
structure State where
  /-- The general registers `V[0]` to `V[15]` (R20). -/
  v : Vector Byte 16
  /-- The index register `I` (R24). -/
  i : Addr
  /-- The program counter (R23). -/
  pc : Word
  /-- The call stack `S`, the oldest return address first (R25). -/
  stack : List Word
  /-- The 4096-byte memory (R26). -/
  mem : Memory
  /-- The delay timer (R27). -/
  dt : Byte
  /-- The sound timer (R28). -/
  st : Byte
  /-- The framebuffer (R32). -/
  fb : Framebuffer
  /-- The sticky fault register (R31). -/
  fault : Option FaultRecord
  /-- The configuration (R7, R8): no instruction and no command writes it. -/
  cfg : Params
  /-- How many inputs have been sampled: the model's own counter, which picks the next free input value. -/
  samples : Nat
deriving DecidableEq, Repr

/-- The reasons for which the model would stop outside the spec. There is none: every fault of the spec is a state whose
fault register holds a record (rules R210, R212), so a step that faults answers a next state. Raised by nobody. -/
inductive Fault
deriving DecidableEq, Repr

/-- The reasons for which the model gives no meaning. -/
inductive Refusal
  /-- Raised by an arm of `exec` for an instruction without a meaning yet; safe. No arm raises it in this model. -/
  | notModelled (mnemonic : String)
deriving DecidableEq, Repr

/-- The state after reset under a configuration (rules R39, R240); `samples` is the model's own. -/
def State.resetWith (cfg : Params) (samples : Nat) : State where
  v := Vector.replicate 16 0x00#8
  i := 0x000#12
  pc := BitVec.ofNat 16 progBase
  stack := []
  mem := []
  dt := 0x00#8
  st := 0x00#8
  fb := Vector.replicate 32 (Vector.replicate 64 false)
  fault := none
  cfg := cfg
  samples := samples

/-- The machine of this hardware right after reset (rule R39). -/
def State.reset : State := State.resetWith thisHardware 0

end Sys2Proof.Machine
end

