-- ==== Sys2Proof/Machine/Memory.lean ====
section
/-! DEFINITION. The 4096-byte memory (rules R26, R39, R52): one byte read, one byte written, the canonical form, and runs
of consecutive bytes. -/

namespace Sys2Proof.Machine

/-- What an address reads as when nothing has written it: the reset contents of rule R39, which hold the configured font
at 0x050 to 0x09F and zero elsewhere. -/
def resetByte (f : Font) (a : Nat) : Byte :=
  if fontBase ≤ a then f.toList.getD (a - fontBase) 0x00#8 else 0x00#8

/-- The byte at an address. -/
def Memory.read (f : Font) : Memory → Nat → Byte
  | [], a => resetByte f a
  | (k, b) :: m, a => if a = k then b else Memory.read f m a

/-- Put a cell into a memory, or leave it out when the byte is what the address reads as unlisted. -/
def consCell (f : Font) (a : Nat) (b : Byte) (m : Memory) : Memory := if b = resetByte f a then m else (a, b) :: m

/-- Write one byte, keeping the canonical form. -/
def Memory.write (f : Font) : Memory → Nat → Byte → Memory
  | [], a, b => consCell f a b []
  | (k, c) :: m, a, b =>
    if a < k then consCell f a b ((k, c) :: m)
    else if a = k then consCell f a b m
    else (k, c) :: Memory.write f m a b

/-- The canonical form above a bound: addresses strictly rising from `lo` and inside memory, and no entry equal to what
its address reads as unlisted. -/
def Memory.wfFrom (f : Font) (lo : Nat) : Memory → Bool
  | [] => true
  | (k, b) :: m => lo ≤ k && k < memSize && b != resetByte f k && Memory.wfFrom f (k + 1) m

/-- The canonical form of a memory. -/
def Memory.wf (f : Font) (m : Memory) : Bool := Memory.wfFrom f 0 m

/-- Write consecutive bytes from an address, the first at it. The address wraps at 4096, which only a run that leaves
memory under `MEM_OOB = wrap` reaches (rule R53). -/
def Memory.writeRun (f : Font) (m : Memory) (a : Addr) : List Byte → Memory
  | [] => m
  | b :: bs => Memory.writeRun f (Memory.write f m a.toNat b) (a + 1) bs

/-- Read `n` consecutive bytes from an address, wrapping as `Memory.writeRun` does. -/
def Memory.readRun (f : Font) (m : Memory) (a : Addr) : Nat → List Byte
  | 0 => []
  | n + 1 => Memory.read f m a.toNat :: Memory.readRun f m (a + 1) n

end Sys2Proof.Machine
end

