-- ==== Sys2Proof/Machine/Ops.lean ====
section
/-! DEFINITION. The named operations over the state: registers, memory, the data address, the call stack, the sampled
inputs, and raising a fault. Each instruction's meaning is written over these. -/

namespace Sys2Proof.Machine

/-- Read a general register (rule R20). -/
def State.readV (s : State) (x : Nibble) : Byte := s.v[x.toNat]'x.isLt

/-- Write a general register (rule R20). -/
def State.writeV (s : State) (x : Nibble) (b : Byte) : State := { s with v := s.v.set x.toNat b x.isLt }

/-- The number of the flag register `VF` (rules R11, R21). -/
def vf : Nibble := 0xF#4

/-- The byte of memory at an address given as a number (rule R26). -/
def State.byteAt (s : State) (a : Nat) : Byte := Memory.read s.cfg.fontData s.mem a

/-- The state's memory is in the canonical form. -/
def State.memWf (s : State) : Bool := Memory.wf s.cfg.fontData s.mem

/-- `MemRead(a, 1)` (rule R52). -/
def State.memRead (s : State) (a : Addr) : Byte := s.byteAt a.toNat

/-- `MemWrite(a, 1, b)` (rule R52). -/
def State.memWrite (s : State) (a : Addr) (b : Byte) : State :=
  { s with mem := Memory.write s.cfg.fontData s.mem a.toNat b }

/-- `MemWrite` of consecutive bytes, the first at an address (rule R52). -/
def State.store (s : State) (a : Addr) (bs : List Byte) : State :=
  { s with mem := Memory.writeRun s.cfg.fontData s.mem a bs }

/-- The address of the k-th byte of an I-based access (rule R53): `I + k`, reduced modulo 4096. The reduction shows only
in a run that leaves memory under `MEM_OOB = wrap`; under `fault` such a run has raised before any byte moves. -/
def State.dataAddr (s : State) (k : Nat) : Addr := s.i + BitVec.ofNat 12 k

/-- `Addr` raises for an n-byte run (rule R53): the run has a byte, leaves memory, and `MEM_OOB = fault`. -/
def State.dataRunRaises (s : State) (n : Nat) : Bool :=
  decide (1 ≤ n) && decide (0xFFF < s.i.toNat + n - 1) && decide (s.cfg.memOob = .fault)

/-- Write a run of bytes at `I`, the k-th at `dataAddr k` (rules R53, R154, R155). -/
def State.writeData (s : State) (bs : List Byte) : State := s.store (s.dataAddr 0) bs

/-- Read an n-byte run at `I`, the k-th byte at `dataAddr k` (rules R53, R156, R191). -/
def State.readData (s : State) (n : Nat) : List Byte := Memory.readRun s.cfg.fontData s.mem (s.dataAddr 0) n

/-- The registers `V[0]` to `V[n-1]`, in order (rule R155). -/
def State.firstRegs (s : State) (n : Nat) : List Byte := s.v.toList.take n

/-- Write bytes to consecutive registers from `V[x]` on (rule R156). -/
def State.writeRegs (s : State) (x : Nibble) : List Byte → State
  | [] => s
  | b :: bs => State.writeRegs (s.writeV x b) (x + 1) bs

/-- The call stack is full (rules R25, R102): never with `STACK_DEPTH = none`. -/
def State.stackFull (s : State) : Bool := decide (s.cfg.stackDepth = some s.stack.length)

/-- `push(S, a)` (rule R11). -/
def State.push (s : State) (a : Word) : State := { s with stack := s.stack ++ [a] }

/-- The top of the stack, `none` when it is empty (rule R11). -/
def State.top (s : State) : Option Word := s.stack.getLast?

/-- The stack without its top (rule R11). -/
def State.dropTop (s : State) : State := { s with stack := s.stack.dropLast }

/-- `pc <- target` (rule R12). -/
def State.setPc (s : State) (target : Word) : State := { s with pc := target }

/-- `I <- a`. -/
def State.setI (s : State) (a : Addr) : State := { s with i := a }

/-- The fetch stage's advance, `pc <- ipc + 2` (rules R23, R90). -/
def State.advance (s : State) : State := s.setPc (s.pc + 2)

/-- `ipc`, the address of the instruction being executed: the fetch stage has advanced `pc` by 2 (rule R14). -/
def State.ipc (s : State) : Word := s.pc - 2

/-- The state after one more input has been sampled: the next sampling takes the next free value (rule R35). -/
def State.sampled (s : State) : State := { s with samples := s.samples + 1 }

/-- The number of a fault code (rule R211, the table's first column; D30). -/
def FaultCode.number : FaultCode → Nat
  | .fetchOutOfRange => 1
  | .decodeFailure => 2
  | .stackUnderflow => 3
  | .stackOverflow => 4
  | .dataOutOfRange => 5

/-- `raise` (rule R212), the one way a fault is taken: every write of the instruction is dropped, `pc` is the
instruction's address again, and the fault register holds the record of rule R211. No handler is entered (rule R221). -/
def State.raiseAt (s : State) (ipc : Word) (code : FaultCode) (word : Option Word) (info : Option DataInfo) : State :=
  { s with pc := ipc, fault := some { code := code, pc := ipc, word := word, info := info } }

/-- `raise` in the rule of an instruction `ins`, executed with `pc = ipc + 2`. Its word is the one it encodes to
(rule R84). -/
def State.raise (s : State) (code : FaultCode) (ins : Instr) (info : Option DataInfo) : State :=
  s.raiseAt s.ipc code (some (encode ins)) info

/-- `raise DataOutOfRange(base = I, len = n)` in the rule of an instruction (rules R53, R218). -/
def State.raiseData (s : State) (ins : Instr) (n : Nat) : State :=
  s.raise .dataOutOfRange ins (some { base := s.i, len := n })

/-- `reset`, the only way out of a fault (rules R213, R225, R240): every piece of state at its reset value, the
configuration as it is, and the environment's free values going on from where they are. -/
def State.hostReset (s : State) : State := State.resetWith s.cfg s.samples

end Sys2Proof.Machine
end

