-- ==== Sys2Proof/Machine/Flags.lean ====
section
/-! DEFINITION. The one flag, `VF` (rule R30): carry, NOT borrow, the bit shifted out and the index overflow, and the
write of a result together with a flag (rule R124). -/

namespace Sys2Proof.Machine

/-- A flag as the byte written to `VF`: 1 or 0. -/
def flagByte (f : Bool) : Byte := if f then 0x01#8 else 0x00#8

/-- The carry of an 8-bit addition (rules R128, R130). -/
def carryFlag (a b : Byte) : Bool := decide (255 < a.toNat + b.toNat)

/-- NOT borrow of an 8-bit subtraction `a - b` (rules R129, R130, R134). -/
def notBorrowFlag (a b : Byte) : Bool := decide (b.toNat ≤ a.toNat)

/-- The bit a right shift moves out (rule R133). -/
def shiftRightFlag (b : Byte) : Bool := b.getLsbD 0

/-- The bit a left shift moves out (rule R136). -/
def shiftLeftFlag (b : Byte) : Bool := b.getLsbD 7

/-- The index add leaves the address range (rule R151). -/
def indexOverflowFlag (i : Addr) (b : Byte) : Bool := decide (0x1000 ≤ i.toNat + b.toNat)

/-- `WriteWithFlag(x, result, flag)` (rule R124): the second write is final when `x = F`. -/
def State.writeWithFlag (s : State) (x : Nibble) (result : Byte) (flag : Bool) : State :=
  match s.cfg.vfOrder with
  | .flagThenResult => (s.writeV vf (flagByte flag)).writeV x result
  | .resultThenFlag => (s.writeV x result).writeV vf (flagByte flag)

/-- The write of the index-add flag (rule R151): only with `ADD_I_VF = on`. -/
def State.writeIndexFlag (s : State) (flag : Bool) : State :=
  { s with v := if s.cfg.addIVf then (s.writeV vf (flagByte flag)).v else s.v }

end Sys2Proof.Machine
end

