-- ==== Sys2Proof/Machine/Operands.lean ====
section
/-! DEFINITION. The operand forms: the skip, the shift source, the jump-with-offset target, the key index and the font
address. -/

namespace Sys2Proof.Machine

/-- `Skip()` when a condition holds (rule R101): two more bytes on top of the fetch advance. -/
def State.skipIf (s : State) (cond : Bool) : State := s.setPc (if cond then s.pc + 2 else s.pc)

/-- `ShiftSrc()` (rule R132). -/
def State.shiftSource (s : State) (x y : Nibble) : Byte :=
  match s.cfg.shiftQuirk with
  | .inPlace => s.readV x
  | .fromVy => s.readV y

/-- The register that a jump with offset adds (rule R109): `V0`, or the one `nnn[11:8]` names. -/
def State.jumpRegister (s : State) (nnn : Addr) : Nibble :=
  match s.cfg.jumpQuirk with
  | .v0 => 0x0#4
  | .vx => nnn.extractLsb' 8 4

/-- The target of a jump with offset (rule R109), not reduced modulo 4096. -/
def State.jumpOffsetTarget (s : State) (nnn : Addr) : Word :=
  nnn.setWidth 16 + (s.readV (s.jumpRegister nnn)).setWidth 16

/-- `KeyIdx(x)`, the low nibble of `V[x]` (rule R176). -/
def State.keyIndex (s : State) (x : Nibble) : Nibble := (s.readV x).extractLsb' 0 4

/-- The address of the glyph of a byte's low nibble (rule R153). -/
def State.fontAddr (s : State) (b : Byte) : Addr := BitVec.ofNat 12 (fontBase + s.cfg.fontGlyphBytes.val * (b.toNat % 16))

/-- The decimal digits of a byte, hundreds first (rule R154). -/
def bcdDigits (b : Byte) : List Byte :=
  [BitVec.ofNat 8 (b.toNat / 100), BitVec.ofNat 8 (b.toNat / 10 % 10), BitVec.ofNat 8 (b.toNat % 10)]

end Sys2Proof.Machine
end

