-- ==== Sys2Proof/Machine/Alu.lean ====
section
/-! DEFINITION. The register and ALU instructions (41_register_alu.md). Results and flags are computed from the operands
as they were before any write (rules R13, R124). -/

namespace Sys2Proof.Machine

/-- `LD Vx, kk` (R121). -/
def execLoadLiteral (x : Nibble) (kk : Byte) (s : State) : Host.Outcome State Fault Refusal := .next (s.writeV x kk)

/-- `ADD Vx, kk` (R122): no flag. -/
def execAddLiteral (x : Nibble) (kk : Byte) (s : State) : Host.Outcome State Fault Refusal :=
  .next (s.writeV x (s.readV x + kk))

/-- `LD Vx, Vy` (R123). -/
def execMove (x y : Nibble) (s : State) : Host.Outcome State Fault Refusal := .next (s.writeV x (s.readV y))

/-- `OR Vx, Vy` (R125): no flag. -/
def execOr (x y : Nibble) (s : State) : Host.Outcome State Fault Refusal := .next (s.writeV x (s.readV x ||| s.readV y))

/-- `AND Vx, Vy` (R126): no flag. -/
def execAnd (x y : Nibble) (s : State) : Host.Outcome State Fault Refusal := .next (s.writeV x (s.readV x &&& s.readV y))

/-- `XOR Vx, Vy` (R127): no flag. -/
def execXor (x y : Nibble) (s : State) : Host.Outcome State Fault Refusal := .next (s.writeV x (s.readV x ^^^ s.readV y))

/-- `ADD Vx, Vy` (R128). -/
def execAdd (x y : Nibble) (s : State) : Host.Outcome State Fault Refusal :=
  .next (s.writeWithFlag x (s.readV x + s.readV y) (carryFlag (s.readV x) (s.readV y)))

/-- `SUB Vx, Vy` (R129). -/
def execSub (x y : Nibble) (s : State) : Host.Outcome State Fault Refusal :=
  .next (s.writeWithFlag x (s.readV x - s.readV y) (notBorrowFlag (s.readV x) (s.readV y)))

/-- `SUBN Vx, Vy` (R134): `V[y]` is the minuend. -/
def execSubReverse (x y : Nibble) (s : State) : Host.Outcome State Fault Refusal :=
  .next (s.writeWithFlag x (s.readV y - s.readV x) (notBorrowFlag (s.readV y) (s.readV x)))

/-- `SHR Vx, Vy` (R133). -/
def execShiftRight (x y : Nibble) (s : State) : Host.Outcome State Fault Refusal :=
  .next (s.writeWithFlag x (s.shiftSource x y >>> 1) (shiftRightFlag (s.shiftSource x y)))

/-- `SHL Vx, Vy` (R136). -/
def execShiftLeft (x y : Nibble) (s : State) : Host.Outcome State Fault Refusal :=
  .next (s.writeWithFlag x (s.shiftSource x y <<< 1) (shiftLeftFlag (s.shiftSource x y)))

/-- `RND Vx, kk` (R138) with the entropy byte the environment presents. -/
def randomWith (r : Byte) (x : Nibble) (kk : Byte) (s : State) : State := s.writeV x (r &&& kk)

/-- `RND Vx, kk` (R138): the byte is the next free value of the entropy input (R38). -/
def execRandom (x : Nibble) (kk : Byte) (s : State) : Host.Outcome State Fault Refusal :=
  .next (randomWith (Config.rndByte s.samples) x kk s.sampled)

end Sys2Proof.Machine
end

