-- ==== Sys2Proof/Machine/ControlFlow.lean ====
section
/-! DEFINITION. The control-transfer instructions (40_control_flow.md). `pc` is `ipc + 2` on entry (rule R90). -/

namespace Sys2Proof.Machine

/-- `JP nnn` (R104). -/
def execJump (nnn : Addr) (s : State) : Host.Outcome State Fault Refusal := .next (s.setPc (nnn.setWidth 16))

/-- `CALL nnn` (R102, R216): the return address pushed is `pc`, already past the call. -/
def execCall (nnn : Addr) (s : State) : Host.Outcome State Fault Refusal :=
  .next (if s.stackFull then s.raise .stackOverflow (.call nnn) none else (s.push s.pc).setPc (nnn.setWidth 16))

/-- `RET` (R103, R215). -/
def execRet (s : State) : Host.Outcome State Fault Refusal :=
  .next (match s.top with
    | none => s.raise .stackUnderflow .ret none
    | some target => s.dropTop.setPc target)

/-- `SE Vx, kk` (R105). -/
def execSkipEqLiteral (x : Nibble) (kk : Byte) (s : State) : Host.Outcome State Fault Refusal :=
  .next (s.skipIf (decide (s.readV x = kk)))

/-- `SNE Vx, kk` (R106). -/
def execSkipNeLiteral (x : Nibble) (kk : Byte) (s : State) : Host.Outcome State Fault Refusal :=
  .next (s.skipIf (decide (s.readV x ≠ kk)))

/-- `SE Vx, Vy` (R107). -/
def execSkipEqReg (x y : Nibble) (s : State) : Host.Outcome State Fault Refusal :=
  .next (s.skipIf (decide (s.readV x = s.readV y)))

/-- `SNE Vx, Vy` (R108). -/
def execSkipNeReg (x y : Nibble) (s : State) : Host.Outcome State Fault Refusal :=
  .next (s.skipIf (decide (s.readV x ≠ s.readV y)))

/-- `JP V0, nnn` (R109). -/
def execJumpOffset (nnn : Addr) (s : State) : Host.Outcome State Fault Refusal := .next (s.setPc (s.jumpOffsetTarget nnn))

end Sys2Proof.Machine
end

