-- ==== Sys2Proof/Machine/Display.lean ====
section
/-! DEFINITION. The framebuffer write logic (44_display.md) and its read-out (rule R33). -/

namespace Sys2Proof.Machine

/-- The pixel at a row and a column (rule R32); `false` outside the grid. -/
def getPixel (fb : Framebuffer) (row col : Nat) : Bool :=
  if h : row < 32 ∧ col < 64 then (fb[row]'h.1)[col]'h.2 else false

/-- Write one pixel (rule R32); nothing outside the grid. -/
def setPixel (fb : Framebuffer) (row col : Nat) (p : Bool) : Framebuffer :=
  if h : row < 32 ∧ col < 64 then fb.set row ((fb[row]'h.1).set col p h.2) h.1 else fb

/-- Combine one sprite bit with the pixel at a position (rule R191), carrying the collision flag along: a position outside
the grid is clipped, a lit bit inverts the pixel and collides if the pixel was set. -/
def drawBit (row col : Nat) (lit : Bool) (d : Framebuffer × Bool) : Framebuffer × Bool :=
  if row ≤ 31 ∧ col ≤ 63 ∧ lit = true then
    (setPixel d.1 row col (!getPixel d.1 row col), d.2 || getPixel d.1 row col)
  else d

/-- Draw sprite columns `c` onward of one sprite byte, `count` of them; column `c` is bit `7 - c` (rule R191). -/
def drawBits (row x0 : Nat) (b : Byte) (c : Nat) : Nat → Framebuffer × Bool → Framebuffer × Bool
  | 0, d => d
  | count + 1, d => drawBits row x0 b (c + 1) count (drawBit row (x0 + c) (b.getLsbD (7 - c)) d)

/-- Draw sprite rows from a row downward, one byte a row (rule R191). -/
def drawRows (x0 row : Nat) : List Byte → Framebuffer × Bool → Framebuffer × Bool
  | [], d => d
  | b :: bs, d => drawRows x0 (row + 1) bs (drawBits row x0 b 0 8 d)

/-- The drawing of a sprite's bytes with its top-left pixel at column `V[x] mod 64`, row `V[y] mod 32` (rule R191): the
new framebuffer and whether any lit bit met a set pixel. -/
def State.drawSprite (s : State) (x y : Nibble) (bytes : List Byte) : Framebuffer × Bool :=
  drawRows ((s.readV x).toNat % 64) ((s.readV y).toNat % 32) bytes (s.fb, false)

/-- `CLS` (R190). -/
def execClearScreen (s : State) : Host.Outcome State Fault Refusal :=
  .next { s with fb := Vector.replicate 32 (Vector.replicate 64 false) }

/-- `DRW Vx, Vy, n` (R191, R218): all `n` bytes are read, and checked, before any pixel changes. -/
def execDraw (x y n : Nibble) (s : State) : Host.Outcome State Fault Refusal :=
  .next (if s.dataRunRaises n.toNat then s.raiseData (.draw x y n) n.toNat
    else
      let d := s.drawSprite x y (s.readData n.toNat)
      { s.writeV vf (flagByte d.2) with fb := d.1 })

/-- The framebuffer read-out (rule R33): the coordinates of the set pixels, row by row. -/
def State.readOut (s : State) : List (Nat × Nat) :=
  (List.range 32).flatMap fun r => ((List.range 64).filter fun c => getPixel s.fb r c).map fun c => (r, c)

end Sys2Proof.Machine
end

