-- ==== Sys2Proof/Machine/IndexMemory.lean ====
section
/-! DEFINITION. The index-register and memory instructions (42_index_memory.md). A run that leaves memory raises before any
byte moves (rule R53). -/

namespace Sys2Proof.Machine

/-- `LD I, nnn` (R150). -/
def execLoadIndex (nnn : Addr) (s : State) : Host.Outcome State Fault Refusal := .next (s.setI nnn)

/-- The index register after an add (rule R151): a 12-bit sum wraps by itself. -/
def State.indexSum (s : State) (b : Byte) : Addr :=
  match indexOverflowFlag s.i b, s.cfg.addIOverflow with
  | true, .saturate => 0xFFF#12
  | true, .wrap => s.i + b.setWidth 12
  | false, _ => s.i + b.setWidth 12

/-- `ADD I, Vx` (R151): `VF` is written only when `ADD_I_VF = on`. -/
def execAddIndex (x : Nibble) (s : State) : Host.Outcome State Fault Refusal :=
  .next ((s.writeIndexFlag (indexOverflowFlag s.i (s.readV x))).setI (s.indexSum (s.readV x)))

/-- `LD F, Vx` (R153). -/
def execFontAddress (x : Nibble) (s : State) : Host.Outcome State Fault Refusal := .next (s.setI (s.fontAddr (s.readV x)))

/-- `LD B, Vx` (R154, R218). -/
def execStoreBcd (x : Nibble) (s : State) : Host.Outcome State Fault Refusal :=
  .next (if s.dataRunRaises 3 then s.raiseData (.storeBcd x) 3 else s.writeData (bcdDigits (s.readV x)))

/-- `LD [I], Vx` (R155, R218): `x + 1` bytes; `I` is unchanged. -/
def execStoreRegisters (x : Nibble) (s : State) : Host.Outcome State Fault Refusal :=
  .next (if s.dataRunRaises (x.toNat + 1) then s.raiseData (.storeRegisters x) (x.toNat + 1)
    else s.writeData (s.firstRegs (x.toNat + 1)))

/-- `LD Vx, [I]` (R156, R218): `x + 1` bytes; `I` is unchanged. -/
def execLoadRegisters (x : Nibble) (s : State) : Host.Outcome State Fault Refusal :=
  .next (if s.dataRunRaises (x.toNat + 1) then s.raiseData (.loadRegisters x) (x.toNat + 1)
    else s.writeRegs 0x0#4 (s.readData (x.toNat + 1)))

end Sys2Proof.Machine
end

