-- ==== Sys2Proof/Machine/TimersKeys.lean ====
section
/-! DEFINITION. The timer and key instructions (43_timers_keys.md) and the timer tick (rule R222). A key instruction is a
function of the input the environment presents, applied to the next free value of that input (rule R35). -/

namespace Sys2Proof.Machine

/-- `LD Vx, DT` (R170). -/
def execLoadDelay (x : Nibble) (s : State) : Host.Outcome State Fault Refusal := .next (s.writeV x s.dt)

/-- `LD DT, Vx` (R171). -/
def execSetDelay (x : Nibble) (s : State) : Host.Outcome State Fault Refusal := .next { s with dt := s.readV x }

/-- `LD ST, Vx` (R172). -/
def execSetSound (x : Nibble) (s : State) : Host.Outcome State Fault Refusal := .next { s with st := s.readV x }

/-- `SKP Vx` (R173) with the answer of `KeyDown(KeyIdx(x))`. -/
def skipKeyPressedWith (held : Bool) (s : State) : State := s.skipIf held

/-- `SKP Vx` (R173, R176). -/
def execSkipKeyPressed (x : Nibble) (s : State) : Host.Outcome State Fault Refusal :=
  .next (skipKeyPressedWith (Config.keyDown s.samples (s.keyIndex x)) s.sampled)

/-- `SKNP Vx` (R174) with the answer of `KeyDown(KeyIdx(x))`. -/
def skipKeyNotPressedWith (held : Bool) (s : State) : State := s.skipIf (!held)

/-- `SKNP Vx` (R174, R176). -/
def execSkipKeyNotPressed (x : Nibble) (s : State) : Host.Outcome State Fault Refusal :=
  .next (skipKeyNotPressedWith (Config.keyDown s.samples (s.keyIndex x)) s.sampled)

/-- `LD Vx, K` (R175) with the answer of `KeyEvent()`: the key, or back to `ipc` to run again. -/
def waitKeyWith (event : Option Nibble) (x : Nibble) (s : State) : State :=
  match event with
  | some k => s.writeV x (k.setWidth 8)
  | none => s.setPc s.ipc

/-- `LD Vx, K` (R175). -/
def execWaitKey (x : Nibble) (s : State) : Host.Outcome State Fault Refusal :=
  .next (waitKeyWith (Config.keyEvent s.samples) x s.sampled)

/-- A timer after one tick: down by one, never below zero (rule R222). -/
def tickDown (b : Byte) : Byte := if b = 0x00#8 then b else b - 1

/-- `timer_tick` (R222): both timers, nothing else, whether or not a fault is held. -/
def State.timerTick (s : State) : State := { s with dt := tickDown s.dt, st := tickDown s.st }

end Sys2Proof.Machine
end

