-- ==== Sys2Proof/Machine/Cycle.lean ====
section
/-! DEFINITION. The instruction cycle (rules R51, R90): fetch, decode and execute one instruction; and the placing of a
word where the next cycle fetches it. -/

namespace Sys2Proof.Machine

/-- `Fetch16(a)` (rule R51): the big-endian word at `a`, at any alignment; `none` where it raises, under either value of
`MEM_OOB`. -/
def State.fetch16 (s : State) (a : Word) : Option Word :=
  if 0xFFF < a.toNat + 1 then none
  else some (wordOfBytes (s.byteAt a.toNat) (s.byteAt (a.toNat + 1)))

/-- The cycle of a machine that holds no fault: fetch, then decode, then execute; the first stage that raises ends it
(rules R90, R219). -/
def cycle (s : State) : Host.Outcome State Fault Refusal :=
  match s.fetch16 s.pc with
  | none => .next (s.raiseAt s.pc .fetchOutOfRange none none)
  | some w =>
    match decode s.cfg.rndPresent w with
    | none => .next (s.raiseAt s.pc .decodeFailure (some w) none)
    | some i => exec i s.advance

/-- `cpu_tick` (rules R90, R213, R241): nothing while a fault is held, else one cycle. -/
def cpuTick (s : State) : Host.Outcome State Fault Refusal :=
  match s.fault with
  | some _ => .next s
  | none => cycle s

/-- The address where a placed word goes: `pc`, or the program base when `pc` is one that no word can be fetched from. -/
def State.fetchAddress (s : State) : Word := if 0xFFF < s.pc.toNat + 1 then BitVec.ofNat 16 progBase else s.pc

/-- The state whose next cycle fetches the bytes of a table word: they stand in memory at the fetch address, and no fault
is held. -/
def State.placeWord (s : State) (nbits w : Nat) : State :=
  { s.store (s.fetchAddress.setWidth 12) (tableBytes nbits w) with pc := s.fetchAddress, fault := none }

end Sys2Proof.Machine
end

