-- ==== Sys2Proof/Machine/Step.lean ====
section
/-! DEFINITION. One step of the machine is one `cpu_tick` (rule R241). -/

namespace Sys2Proof.Machine

/-- One `cpu_tick` (rules R90, R241). -/
def step (s : State) : Host.Outcome State Fault Refusal := cpuTick s

/-- The state in which the next step fetches and runs the instruction word `w` of `nbits` bits. -/
def State.withFetchWord (s : State) (nbits w : Nat) : State := s.placeWord nbits w

end Sys2Proof.Machine
end

