-- ==== Sys2Proof/OpcodeTable.lean ====
section
/-! DEFINITION. spec/opcode_table.json as data (rule R75): each row's mnemonic, mask and match, and the row of an
instruction. The decoder and the encoder do not read it; claims compare them with it. -/

namespace Sys2Proof

/-- A row of the opcode table: a word `w` is this instruction iff `w &&& mask = pattern`. -/
structure TableRow where
  mnemonic : String
  mask : Word
  pattern : Word
deriving DecidableEq, Repr

/-- The row of an instruction. -/
def tableRow : Instr → TableRow
  | .clearScreen => ⟨"CLS", 0xFFFF#16, 0x00E0#16⟩
  | .ret => ⟨"RET", 0xFFFF#16, 0x00EE#16⟩
  | .jump _ => ⟨"JP_nnn", 0xF000#16, 0x1000#16⟩
  | .call _ => ⟨"CALL_nnn", 0xF000#16, 0x2000#16⟩
  | .skipEqLiteral _ _ => ⟨"SE_Vx__kk", 0xF000#16, 0x3000#16⟩
  | .skipNeLiteral _ _ => ⟨"SNE_Vx__kk", 0xF000#16, 0x4000#16⟩
  | .skipEqReg _ _ => ⟨"SE_Vx__Vy", 0xF00F#16, 0x5000#16⟩
  | .loadLiteral _ _ => ⟨"LD_Vx__kk", 0xF000#16, 0x6000#16⟩
  | .addLiteral _ _ => ⟨"ADD_Vx__kk", 0xF000#16, 0x7000#16⟩
  | .move _ _ => ⟨"LD_Vx__Vy", 0xF00F#16, 0x8000#16⟩
  | .or _ _ => ⟨"OR_Vx__Vy", 0xF00F#16, 0x8001#16⟩
  | .and _ _ => ⟨"AND_Vx__Vy", 0xF00F#16, 0x8002#16⟩
  | .xor _ _ => ⟨"XOR_Vx__Vy", 0xF00F#16, 0x8003#16⟩
  | .add _ _ => ⟨"ADD_Vx__Vy", 0xF00F#16, 0x8004#16⟩
  | .sub _ _ => ⟨"SUB_Vx__Vy", 0xF00F#16, 0x8005#16⟩
  | .shiftRight _ _ => ⟨"SHR_Vx__Vy", 0xF00F#16, 0x8006#16⟩
  | .subReverse _ _ => ⟨"SUBN_Vx__Vy", 0xF00F#16, 0x8007#16⟩
  | .shiftLeft _ _ => ⟨"SHL_Vx__Vy", 0xF00F#16, 0x800E#16⟩
  | .skipNeReg _ _ => ⟨"SNE_Vx__Vy", 0xF00F#16, 0x9000#16⟩
  | .loadIndex _ => ⟨"LD_I__nnn", 0xF000#16, 0xA000#16⟩
  | .jumpOffset _ => ⟨"JP_V0__nnn", 0xF000#16, 0xB000#16⟩
  | .random _ _ => ⟨"RND_Vx__kk", 0xF000#16, 0xC000#16⟩
  | .draw _ _ _ => ⟨"DRW_Vx__Vy__n", 0xF000#16, 0xD000#16⟩
  | .skipKeyPressed _ => ⟨"SKP_Vx", 0xF0FF#16, 0xE09E#16⟩
  | .skipKeyNotPressed _ => ⟨"SKNP_Vx", 0xF0FF#16, 0xE0A1#16⟩
  | .loadDelay _ => ⟨"LD_Vx__DT", 0xF0FF#16, 0xF007#16⟩
  | .waitKey _ => ⟨"LD_Vx__K", 0xF0FF#16, 0xF00A#16⟩
  | .setDelay _ => ⟨"LD_DT__Vx", 0xF0FF#16, 0xF015#16⟩
  | .setSound _ => ⟨"LD_ST__Vx", 0xF0FF#16, 0xF018#16⟩
  | .addIndex _ => ⟨"ADD_I__Vx", 0xF0FF#16, 0xF01E#16⟩
  | .fontAddress _ => ⟨"LD_F__Vx", 0xF0FF#16, 0xF029#16⟩
  | .storeBcd _ => ⟨"LD_B__Vx", 0xF0FF#16, 0xF033#16⟩
  | .storeRegisters _ => ⟨"LD__I___Vx", 0xF0FF#16, 0xF055#16⟩
  | .loadRegisters _ => ⟨"LD_Vx___I", 0xF0FF#16, 0xF065#16⟩

/-- The whole table, in its own order. -/
def opcodeTable : List TableRow :=
  [tableRow .clearScreen, tableRow .ret, tableRow (.jump 0)] ++
  [tableRow (.call 0), tableRow (.skipEqLiteral 0 0), tableRow (.skipNeLiteral 0 0)] ++
  [tableRow (.skipEqReg 0 0), tableRow (.loadLiteral 0 0), tableRow (.addLiteral 0 0)] ++
  [tableRow (.move 0 0), tableRow (.or 0 0), tableRow (.and 0 0)] ++
  [tableRow (.xor 0 0), tableRow (.add 0 0), tableRow (.sub 0 0)] ++
  [tableRow (.shiftRight 0 0), tableRow (.subReverse 0 0), tableRow (.shiftLeft 0 0)] ++
  [tableRow (.skipNeReg 0 0), tableRow (.loadIndex 0), tableRow (.jumpOffset 0)] ++
  [tableRow (.random 0 0), tableRow (.draw 0 0 0), tableRow (.skipKeyPressed 0)] ++
  [tableRow (.skipKeyNotPressed 0), tableRow (.loadDelay 0), tableRow (.waitKey 0)] ++
  [tableRow (.setDelay 0), tableRow (.setSound 0), tableRow (.addIndex 0)] ++
  [tableRow (.fontAddress 0), tableRow (.storeBcd 0), tableRow (.storeRegisters 0)] ++
  [tableRow (.loadRegisters 0)]

end Sys2Proof
end

