-- ==== Sys2Proof/Machine/HostCommands.lean ====
section
/-! DEFINITION. The four host commands (70_reset_and_hazards.md, rules R240 to R243), what the core returns for each
(rules R210, R245), and a run of commands (rules R247, R250). -/

namespace Sys2Proof.Machine

/-- A command of the host (rules R240 to R243). -/
inductive Command
  | reset
  | load (image : List Byte)
  | cpuTick
  | timerTick
deriving DecidableEq, Repr

/-- Why a `load` is turned away (rule R243). -/
inductive LoadError
  /-- The image is longer than the memory from the program base on. -/
  | tooLarge
deriving DecidableEq, Repr

/-- What the core returns to the host (rules R210, R213, R245). -/
inductive Response
  /-- The command ended in a next state. -/
  | ok
  /-- A `cpu_tick` ended with this record in the fault register, or found it there. -/
  | faulted (r : FaultRecord)
  /-- A `load` was turned away. -/
  | loadError (e : LoadError)
deriving DecidableEq, Repr

/-- What a command leaves: the response and the state. -/
structure Reply where
  response : Response
  state : State
deriving DecidableEq, Repr

/-- The image fits between the program base and the end of memory (rule R243). -/
def imageFits (image : List Byte) : Bool := decide (image.length ≤ memSize - progBase)

/-- `load(image)` (rule R243): the image's bytes from 0x200 on, and nothing else; an image too long changes nothing. -/
def State.load (s : State) (image : List Byte) : Reply :=
  if imageFits image then
    { response := .ok, state := s.store (BitVec.ofNat 12 progBase) image }
  else { response := .loadError .tooLarge, state := s }

/-- The report of a state to the host after a `cpu_tick` (rules R210, R213). -/
def State.report (s : State) : Reply :=
  match s.fault with
  | some r => { response := .faulted r, state := s }
  | none => { response := .ok, state := s }

/-- One host command, whole before the next (rules R59, R66, R210). -/
def command (c : Command) (s : State) : Host.Outcome Reply Fault Refusal :=
  match c with
  | .reset => .next { response := .ok, state := s.hostReset }
  | .load image => .next (s.load image)
  | .timerTick => .next { response := .ok, state := s.timerTick }
  | .cpuTick =>
    match step s with
    | .next t => .next t.report
    | .fault f => .fault f
    | .refused r => .refused r

/-- The state after a sequence of host commands, in the order the host chose (rules R247, R250). -/
def runCommands : List Command → State → Host.Outcome State Fault Refusal
  | [], s => .next s
  | c :: cs, s =>
    match command c s with
    | .next r => runCommands cs r.state
    | .fault f => .fault f
    | .refused r => .refused r

/-- Boot (rule R244): `reset`, then one `load`. -/
def bootCommands (image : List Byte) : List Command := [.reset, .load image]

/-- The introspection read of one memory byte (rule R34). The other introspection reads are the fields of the state. -/
def State.inspectByte (s : State) (a : Addr) : Byte := s.memRead a

/-- The number of the held fault's code as the host reads it, `none` while no fault is held (rules R34, R211). -/
def State.inspectFaultCode (s : State) : Option Nat := s.fault.map fun r => r.code.number

end Sys2Proof.Machine
end

