-- ==== Sys2Proof/Safety.lean ====
section
/-! DEFINITION. The terms claims use: the invariant of the machine, the fixed loop and the fault stop of rule R250, and
what an instruction changes and leaves unchanged. -/

namespace Sys2Proof.Machine

/-- A fault record has the form of rule R211: a word unless the fetch itself failed, and `info` for code 5 only, with a
length that a data access can have. -/
def FaultRecord.wellFormed (r : FaultRecord) : Bool :=
  match r.code with
  | .fetchOutOfRange => r.word.isNone && r.info.isNone && decide (0xFFF ≤ r.pc.toNat)
  | .decodeFailure => r.word.isSome && r.info.isNone
  | .stackUnderflow => decide (r.word = some 0x00EE#16) && r.info.isNone
  | .stackOverflow => r.word.isSome && r.info.isNone
  | .dataOutOfRange => r.word.isSome &&
      match r.info with
      | some d => decide (1 ≤ d.len) && decide (d.len ≤ 16) && decide (0xFFF < d.base.toNat + d.len - 1)
      | none => false

/-- The stack holds no more than `STACK_DEPTH` entries (rule R25). -/
def State.stackFits (s : State) : Bool :=
  match s.cfg.stackDepth with
  | none => true
  | some d => decide (s.stack.length ≤ d)

/-- The invariant of every run: memory in canonical form, the stack within its depth, `pc` and the return addresses
within the values the rules can form (rule R23: at most 0x10FE), and a held fault record well formed and naming `pc`. -/
structure Inv (s : State) : Prop where
  mem : s.memWf = true
  depth : s.stackFits = true
  pc : s.pc.toNat ≤ 0x10FE
  returns : ∀ a ∈ s.stack, a.toNat ≤ 0x1000
  record : ∀ r, s.fault = some r → r.wellFormed = true ∧ r.pc = s.pc

/-- A fixed loop (rule R250): no fault held, and the word at `pc` is a jump to `pc`. -/
def atFixedLoop (s : State) : Prop :=
  s.fault = none ∧ ∃ nnn : Addr, s.fetch16 s.pc = some (encode (.jump nnn)) ∧ nnn.setWidth 16 = s.pc

/-- A fault stop (rule R250). -/
def atFaultStop (s : State) : Prop := s.fault ≠ none

/-- From `s` to `t` the register `x` becomes `b`, and nothing else changes: no other register, no `I`, `pc`, stack,
memory byte, timer, pixel, fault, configuration or sample count. -/
structure OnlyWritesV (s t : State) (x : Nibble) (b : Byte) : Prop where
  value : t.readV x = b
  others : ∀ z, z ≠ x → t.readV z = s.readV z
  frame : t = { s with v := t.v }

/-- From `s` to `t` a result goes to `V[x]` and a flag (1 or 0) to `VF` in the order `VF_ORDER` (rule R124), and nothing
else changes. -/
structure OnlyWritesWithFlag (s t : State) (x : Nibble) (result : Byte) (flag : Bool) : Prop where
  value : x ≠ 0xF#4 → t.readV x = result
  flagged : x ≠ 0xF#4 → t.readV 0xF#4 = if flag then 1#8 else 0#8
  both : x = 0xF#4 → t.readV 0xF#4 =
    match s.cfg.vfOrder with
    | .flagThenResult => result
    | .resultThenFlag => if flag then 1#8 else 0#8
  others : ∀ z, z ≠ x → z ≠ 0xF#4 → t.readV z = s.readV z
  frame : t = { s with v := t.v }

/-- From `s`, in which an instruction fetched at `ipc` is executed, `t` is the state of a fault raised by it (rule R212):
`pc` is `ipc`, the record is held, and nothing else has changed. -/
def Raises (s t : State) (code : FaultCode) (ipc : Word) (word : Option Word) (info : Option DataInfo) : Prop :=
  t = { s with pc := ipc, fault := some ⟨code, ipc, word, info⟩ }

/-- Every piece of state is at the value of rule R39's table. The configuration is as built, so it is not named here. -/
structure IsReset (t : State) : Prop where
  registers : ∀ x, t.readV x = 0x00#8
  index : t.i = 0x000#12
  pc : t.pc = 0x200#16
  stack : t.stack = []
  timers : t.dt = 0x00#8 ∧ t.st = 0x00#8
  pixels : ∀ r c, getPixel t.fb r c = false
  fault : t.fault = none
  font : ∀ a : Addr, 0x050 ≤ a.toNat → a.toNat ≤ 0x09F →
    t.memRead a = t.cfg.fontData.toList.getD (a.toNat - 0x050) 0x00#8
  rest : ∀ a : Addr, (a.toNat < 0x050 ∨ 0x09F < a.toNat) → t.memRead a = 0x00#8

/-- The length in bytes of an instruction's I-based run (rules R154 to R156, R191), `none` for one without such a run. -/
def dataRunLength : Instr → Option Nat
  | .draw _ _ n => some n.toNat
  | .storeBcd _ => some 3
  | .storeRegisters x => some (x.toNat + 1)
  | .loadRegisters x => some (x.toNat + 1)
  | .clearScreen | .ret | .jump _ | .call _ | .skipEqLiteral _ _ | .skipNeLiteral _ _ | .skipEqReg _ _ => none
  | .loadLiteral _ _ | .addLiteral _ _ | .move _ _ | .or _ _ | .and _ _ | .xor _ _ | .add _ _ | .sub _ _ => none
  | .shiftRight _ _ | .subReverse _ _ | .shiftLeft _ _ | .skipNeReg _ _ | .loadIndex _ | .jumpOffset _ => none
  | .random _ _ | .skipKeyPressed _ | .skipKeyNotPressed _ | .loadDelay _ | .waitKey _ | .setDelay _ => none
  | .setSound _ | .addIndex _ | .fontAddress _ => none

/-- The registers an instruction may write: the rows `V[x]` and `VF` of the access table of rule R22. -/
def writesV (c : Params) (i : Instr) (z : Nibble) : Bool :=
  match i with
  | .loadLiteral x _ | .addLiteral x _ | .random x _ => decide (z = x)
  | .move x _ | .or x _ | .and x _ | .xor x _ => decide (z = x)
  | .loadDelay x | .waitKey x => decide (z = x)
  | .add x _ | .sub x _ | .subReverse x _ | .shiftRight x _ | .shiftLeft x _ => decide (z = x) || decide (z = 0xF#4)
  | .draw _ _ _ => decide (z = 0xF#4)
  | .addIndex _ => c.addIVf && decide (z = 0xF#4)
  | .loadRegisters x => decide (z.toNat ≤ x.toNat)
  | .clearScreen | .ret | .jump _ | .call _ | .skipEqLiteral _ _ | .skipNeLiteral _ _ | .skipEqReg _ _ => false
  | .skipNeReg _ _ | .loadIndex _ | .jumpOffset _ | .skipKeyPressed _ | .skipKeyNotPressed _ => false
  | .setDelay _ | .setSound _ | .fontAddress _ | .storeBcd _ | .storeRegisters _ => false

/-- The instructions that may write `pc`, beyond the fetch advance: the row `pc` of the access table of rule R22. -/
def writesPc : Instr → Bool
  | .jump _ | .call _ | .ret | .jumpOffset _ | .waitKey _ => true
  | .skipEqLiteral _ _ | .skipNeLiteral _ _ | .skipEqReg _ _ | .skipNeReg _ _ => true
  | .skipKeyPressed _ | .skipKeyNotPressed _ => true
  | .clearScreen | .loadLiteral _ _ | .addLiteral _ _ | .move _ _ | .or _ _ | .and _ _ | .xor _ _ | .add _ _ => false
  | .sub _ _ | .shiftRight _ _ | .subReverse _ _ | .shiftLeft _ _ | .loadIndex _ | .random _ _ | .draw _ _ _ => false
  | .loadDelay _ | .setDelay _ | .setSound _ | .addIndex _ | .fontAddress _ | .storeBcd _ => false
  | .storeRegisters _ | .loadRegisters _ => false

/-- An n-byte run at `I` leaves memory where that is a fault (rules R53, R218). -/
def RunLeavesMemory (s : State) (n : Nat) : Prop := 1 ≤ n ∧ 0xFFF < s.i.toNat + n - 1 ∧ s.cfg.memOob = .fault

/-- The sprite that `DRW Vx, Vy, n` draws has a lit bit at this position of the grid (rule R191): the position is in one of
the `n` rows from `V[y] mod 32` and one of the 8 columns from `V[x] mod 64`, and that row's byte has that bit set, the
leftmost column being bit 7. -/
def SpriteLit (s : State) (x y n : Nibble) (row col : Nat) : Prop :=
  let x0 := (s.readV x).toNat % 64
  let y0 := (s.readV y).toNat % 32
  y0 ≤ row ∧ row < y0 + n.toNat ∧ x0 ≤ col ∧ col < x0 + 8 ∧
    (s.memRead (s.dataAddr (row - y0))).getLsbD (7 - (col - x0)) = true

end Sys2Proof.Machine
end

