-- ==== Sys2Proof/Certificates/Slice0/Obligations.lean ====
section
/-! DEFINITION. The statements for the provers. A statement about `exec i s` is about the state `s` the fetch stage leaves,
whose `pc` is already `ipc + 2` (rules R14, R90), so `s.pc - 2` is the instruction's own address. Where a docstring names a
decision D<n>, the rule cited rests on that decision of the spec (92_eei_decisions.md). -/

open Sys2Proof Sys2Proof.Machine

/-! ## Decoding and encoding -/

/-- Decoding an encoded instruction gives it back with every operand, whatever bytes follow. Formalises the sentence
"`decode(encode(i)) = i` for every instruction value", which 30_encoding.md section 3 marks as derived. -/
def Obligations.DecodeOfEncodeIsTheInstruction : Prop :=
  ∀ (rnd : Bool) (i : Instr) (rest : List Byte), i.wellFormed rnd = true →
    decode rnd (encode i) = some i ∧ decodeBytes rnd (encodeBytes i ++ rest) = some (i, rest)

/-- Encoding a decoded instruction gives back the whole word, so no bit of a decoding word is ignored. Formalises the
sentence "`encode(decode(w)) = w` for every decoding word", which 30_encoding.md section 3 marks as derived. -/
def Obligations.EncodeOfDecodeIsTheWord : Prop :=
  ∀ (rnd : Bool) (w : Word) (i : Instr), decode rnd w = some i → encode i = w ∧ i.wellFormed rnd = true

/-- A word decodes iff it matches a row of the opcode table (class C only with `RND_PRESENT`), and then it matches the
row of the instruction it decodes to (rules R76 to R81; D5 to D7, on the table of rule R75, D4). -/
def Obligations.DecoderAcceptsExactlyTheTable : Prop :=
  ∀ (rnd : Bool) (w : Word),
    ((decode rnd w).isSome = true ↔
      ∃ r ∈ opcodeTable, w &&& r.mask = r.pattern ∧ (rnd = false → r ≠ tableRow (.random 0 0))) ∧
    ∀ i, decode rnd w = some i → w &&& (tableRow i).mask = (tableRow i).pattern

/-- A word of every row of the opcode table, its bits written out from the spec's encodings, decodes to its instruction,
and every failure of the decode table of Part L2 is refused (30_encoding.md section 2; 95_test_vectors.md S2 and Part
L2). -/
def Obligations.SampleWordsDecode : Prop :=
  [0x00E0#16, 0x00EE#16, 0x1ABC#16, 0x2456#16].map (decode true) =
    [some .clearScreen, some .ret, some (.jump 0xABC), some (.call 0x456)] ∧
  [0x3E00#16, 0x4105#16, 0x5AB0#16, 0x9120#16].map (decode true) =
    [some (.skipEqLiteral 0xE 0x00), some (.skipNeLiteral 0x1 0x05), some (.skipEqReg 0xA 0xB), some (.skipNeReg 0x1 0x2)] ∧
  [0x61A5#16, 0x71FF#16, 0xA2F0#16, 0xB2F0#16].map (decode true) =
    [some (.loadLiteral 0x1 0xA5), some (.addLiteral 0x1 0xFF), some (.loadIndex 0x2F0), some (.jumpOffset 0x2F0)] ∧
  [0x8120#16, 0x8121#16, 0x8122#16, 0x8123#16, 0x8014#16].map (decode true) =
    [some (.move 0x1 0x2), some (.or 0x1 0x2), some (.and 0x1 0x2), some (.xor 0x1 0x2), some (.add 0x0 0x1)] ∧
  [0x8015#16, 0x8016#16, 0x8AB7#16, 0x8ABE#16].map (decode true) =
    [some (.sub 0x0 0x1), some (.shiftRight 0x0 0x1), some (.subReverse 0xA 0xB), some (.shiftLeft 0xA 0xB)] ∧
  [0xC3FF#16, 0xD3A7#16, 0xE19E#16, 0xE1A1#16].map (decode true) =
    [some (.random 0x3 0xFF), some (.draw 0x3 0xA 0x7), some (.skipKeyPressed 0x1), some (.skipKeyNotPressed 0x1)] ∧
  [0xF207#16, 0xF10A#16, 0xF215#16, 0xF218#16, 0xF11E#16].map (decode true) =
    [some (.loadDelay 0x2), some (.waitKey 0x1), some (.setDelay 0x2), some (.setSound 0x2), some (.addIndex 0x1)] ∧
  [0xF029#16, 0xFF33#16, 0xF155#16, 0xF065#16].map (decode true) =
    [some (.fontAddress 0x0), some (.storeBcd 0xF), some (.storeRegisters 0x1), some (.loadRegisters 0x0)] ∧
  [0x0000#16, 0x00E1#16, 0x0123#16, 0x5AB1#16, 0x9AB1#16, 0x8AB8#16, 0x8ABF#16].map (decode true) = List.replicate 7 none ∧
  [0xE100#16, 0xE19F#16, 0xF100#16, 0xF1FF#16, 0xF175#16, 0xFFFF#16].map (decode true) = List.replicate 6 none ∧
  decode false 0xC3FF#16 = none

/-! ## The instruction cycle -/

/-- A step runs the decoded instruction: where no fault is held and the two bytes at `pc` are in memory and decode, the
step is `exec` of that instruction after the fetch stage's advance of `pc` by 2, which is all the step adds. -/
def Obligations.StepRunsTheDecodedInstruction : Prop :=
  ∀ (s : State) (i : Instr), s.fault = none → s.pc.toNat + 1 ≤ 0xFFF →
    decodeBytes s.cfg.rndPresent [s.byteAt s.pc.toNat, s.byteAt (s.pc.toNat + 1)] = some (i, []) →
    step s = exec i { s with pc := s.pc + 2 }

/-- Fetch reads the big-endian word at any address whose two bytes are in memory, odd or even, and never wraps, whatever
`MEM_OOB` is; elsewhere the tick raises `FetchOutOfRange` (rule R51; D9). -/
def Obligations.FetchReadsBigEndianAndNeverWraps : Prop :=
  ∀ s : State,
    (∀ a : Word, a.toNat + 1 ≤ 0xFFF → ∃ w, s.fetch16 a = some w ∧
      w.toNat = (s.byteAt a.toNat).toNat * 256 + (s.byteAt (a.toNat + 1)).toNat) ∧
    (s.fault = none → 0xFFF < s.pc.toNat + 1 →
      ∃ t, step s = .next t ∧ Raises s t .fetchOutOfRange s.pc none none)

/-- A word of no instruction raises `DecodeFailure` with the offending address and raw word; it is not skipped, and the
machine does not resume by itself (rule R214). -/
def Obligations.DecodeFailureIsReportedAndStops : Prop :=
  ∀ (s : State) (w : Word), s.fault = none → s.fetch16 s.pc = some w → decode s.cfg.rndPresent w = none →
    ∃ t, step s = .next t ∧ Raises s t .decodeFailure s.pc (some w) none ∧ step t = .next t

/-- While a fault is held a `cpu_tick` changes nothing and reports the record again; `timer_tick` and `load` still act and
keep it; of the commands only `reset` clears it (rule R213; D20, D22). -/
def Obligations.HeldFaultIsSticky : Prop :=
  ∀ (s : State) (r : FaultRecord), s.fault = some r →
    step s = .next s ∧ command .cpuTick s = .next ⟨.faulted r, s⟩ ∧
    (∃ t, command .timerTick s = .next ⟨.ok, t⟩ ∧ t.fault = some r ∧
      t.dt.toNat = s.dt.toNat - 1 ∧ t.st.toNat = s.st.toNat - 1) ∧
    (∀ image : List Byte, image.length ≤ 3584 →
      ∃ t, command (.load image) s = .next ⟨.ok, t⟩ ∧ t = s.store 0x200#12 image ∧ t.fault = some r) ∧
    ∀ c q, command c s = .next q → (q.state.fault = none ↔ c = .reset)

/-- Every fault is precise: the tick that raises it changes the fault register alone, and the record names the
instruction's address and the word fetched there, or no word where the fetch itself failed (rule R212). The record's code
and its number, its word and its `info` are those of the table of rule R211, each raised where that table says (D30). A data run that leaves memory
under `MEM_OOB = fault` is raised with its base and length, and nothing is under `wrap` (rule R218; D10). -/
def Obligations.FaultsArePrecise : Prop :=
  (∀ (s t : State) (r : FaultRecord), s.fault = none → step s = .next t → t.fault = some r →
    t = { s with fault := some r } ∧ r.pc = s.pc ∧ r.word = s.fetch16 s.pc ∧
    match r.code with
    | .fetchOutOfRange => r.code.number = 1 ∧ 0xFFF < s.pc.toNat + 1 ∧ r.word = none ∧ r.info = none
    | .decodeFailure => r.code.number = 2 ∧ (∃ w, r.word = some w ∧ decode s.cfg.rndPresent w = none) ∧ r.info = none
    | .stackUnderflow => r.code.number = 3 ∧ s.stack = [] ∧ r.word = some 0x00EE#16 ∧ r.info = none
    | .stackOverflow => r.code.number = 4 ∧ s.cfg.stackDepth = some s.stack.length ∧
        (∃ nnn, r.word = some (encode (.call nnn))) ∧ r.info = none
    | .dataOutOfRange => r.code.number = 5 ∧ ∃ i n, r.word = some (encode i) ∧ dataRunLength i = some n ∧
        r.info = some ⟨s.i, n⟩ ∧ RunLeavesMemory s n) ∧
  ∀ (s : State) (w : Word) (i : Instr) (n : Nat), s.fault = none → s.fetch16 s.pc = some w →
    decode s.cfg.rndPresent w = some i → dataRunLength i = some n → RunLeavesMemory s n →
    step s = .next { s with fault := some ⟨.dataOutOfRange, s.pc, some w, some ⟨s.i, n⟩⟩ }

/-- Each execute rule raises at most one code, and only RET, CALL, DRW, LD B, LD [I] and LD Vx,[I] raise at all.
Formalises 60_exceptions.md section 3, which the spec marks as derived. -/
def Obligations.OnlySixInstructionsRaise : Prop :=
  ∀ (i : Instr) (s t : State), exec i s = .next t → t.fault ≠ s.fault →
    ∃ code info, t.fault = some ⟨code, s.pc - 2, some (encode i), info⟩ ∧
      ((code = .stackUnderflow ∧ i = .ret) ∨ (code = .stackOverflow ∧ ∃ nnn, i = .call nnn) ∨
        (code = .dataOutOfRange ∧ (dataRunLength i).isSome = true))

/-! ## Control transfer -/

/-- `JP nnn` sets `pc` to the address and changes nothing else; it completes in every state (rule R104). -/
def Obligations.JumpSetsPc : Prop :=
  ∀ (nnn : Addr) (s : State), ∃ t, exec (.jump nnn) s = .next t ∧ t.pc.toNat = nnn.toNat ∧ t = { s with pc := t.pc }

/-- `CALL nnn` pushes the address after the call and jumps, changing nothing else; with the stack at a finite
`STACK_DEPTH` it raises `StackOverflow` instead (rules R102, R216; D8). -/
def Obligations.CallPushesAndJumps : Prop :=
  ∀ (nnn : Addr) (s : State),
    (s.cfg.stackDepth ≠ some s.stack.length →
      exec (.call nnn) s = .next { s with stack := s.stack ++ [s.pc], pc := nnn.setWidth 16 }) ∧
    (s.cfg.stackDepth = some s.stack.length →
      ∃ t, exec (.call nnn) s = .next t ∧ Raises s t .stackOverflow (s.pc - 2) (some (encode (.call nnn))) none)

/-- `RET` takes the last address pushed off the stack and jumps to it as it is, changing nothing else; on an empty stack
it raises `StackUnderflow` (rule R103). -/
def Obligations.ReturnPopsAndJumps : Prop :=
  ∀ s : State,
    (∀ below target, s.stack = below ++ [target] → exec .ret s = .next { s with stack := below, pc := target }) ∧
    (s.stack = [] → ∃ t, exec .ret s = .next t ∧ Raises s t .stackUnderflow (s.pc - 2) (some 0x00EE#16) none)

/-- A return from a subroutine that left the stack as the call made it goes to the instruction after the call and leaves
the stack as it was before the call (40_control_flow.md section 2; source §8). -/
def Obligations.ReturnUndoesCall : Prop :=
  ∀ (nnn : Addr) (s t u : State), exec (.call nnn) s = .next t → t.fault = none → u.stack = t.stack →
    ∃ r, exec .ret u = .next r ∧ r = { u with pc := s.pc, stack := s.stack }

/-- `SE Vx, kk` and `SNE Vx, kk` add 2 to the advanced `pc` when the register equals, or differs from, the literal, and
change nothing else (rules R105, R106). -/
def Obligations.LiteralSkips : Prop :=
  ∀ (x : Nibble) (kk : Byte) (s : State),
    exec (.skipEqLiteral x kk) s = .next { s with pc := if s.readV x = kk then s.pc + 2 else s.pc } ∧
    exec (.skipNeLiteral x kk) s = .next { s with pc := if s.readV x = kk then s.pc else s.pc + 2 }

/-- `SE Vx, Vy` and `SNE Vx, Vy` likewise on two registers (rules R107, R108). -/
def Obligations.RegisterSkips : Prop :=
  ∀ (x y : Nibble) (s : State),
    exec (.skipEqReg x y) s = .next { s with pc := if s.readV x = s.readV y then s.pc + 2 else s.pc } ∧
    exec (.skipNeReg x y) s = .next { s with pc := if s.readV x = s.readV y then s.pc else s.pc + 2 }

/-- `JP V0, nnn` jumps to the exact sum of the address and `V0`, or under `JUMP_QUIRK = vx` the register that the top
nibble of the address names; the sum is not reduced modulo 4096; nothing else changes (rule R109; D16, D23). -/
def Obligations.JumpOffsetAddsTheChosenRegister : Prop :=
  ∀ (nnn : Addr) (s : State), ∃ t, exec (.jumpOffset nnn) s = .next t ∧ t = { s with pc := t.pc } ∧
    (s.cfg.jumpQuirk = .v0 → t.pc.toNat = nnn.toNat + (s.readV 0x0#4).toNat) ∧
    (s.cfg.jumpQuirk = .vx → t.pc.toNat = nnn.toNat + (s.readV (BitVec.ofNat 4 (nnn.toNat / 256))).toNat)

/-! ## Registers and ALU -/

/-- `LD Vx, kk` and `LD Vx, Vy` write `V[x]` alone (rules R121, R123). -/
def Obligations.LoadLiteralAndMove : Prop :=
  ∀ (x y : Nibble) (kk : Byte) (s : State),
    (∃ t, exec (.loadLiteral x kk) s = .next t ∧ OnlyWritesV s t x kk) ∧
    ∃ t, exec (.move x y) s = .next t ∧ OnlyWritesV s t x (s.readV y)

/-- `ADD Vx, kk` writes the sum modulo 256 to `V[x]` alone: no flag (rule R122; D14). -/
def Obligations.AddLiteralWrapsWithoutFlag : Prop :=
  ∀ (x : Nibble) (kk : Byte) (s : State), ∃ t sum, exec (.addLiteral x kk) s = .next t ∧
    sum.toNat = ((s.readV x).toNat + kk.toNat) % 256 ∧ OnlyWritesV s t x sum

/-- `OR`, `AND` and `XOR` combine the registers bit by bit into `V[x]` alone: no flag (rules R125 to R127; D13). -/
def Obligations.LogicActsBitwiseWithoutFlag : Prop :=
  ∀ (x y : Nibble) (s : State),
    (∃ t b, exec (.or x y) s = .next t ∧ OnlyWritesV s t x b ∧
      ∀ j, b.getLsbD j = ((s.readV x).getLsbD j || (s.readV y).getLsbD j)) ∧
    (∃ t b, exec (.and x y) s = .next t ∧ OnlyWritesV s t x b ∧
      ∀ j, b.getLsbD j = ((s.readV x).getLsbD j && (s.readV y).getLsbD j)) ∧
    ∃ t b, exec (.xor x y) s = .next t ∧ OnlyWritesV s t x b ∧
      ∀ j, b.getLsbD j = ((s.readV x).getLsbD j ^^ (s.readV y).getLsbD j)

/-- `ADD Vx, Vy` writes the sum modulo 256 and the carry, in the order `VF_ORDER`, and nothing else (rule R128; D15). -/
def Obligations.AddWritesSumAndCarry : Prop :=
  ∀ (x y : Nibble) (s : State), ∃ t sum flag, exec (.add x y) s = .next t ∧
    sum.toNat = ((s.readV x).toNat + (s.readV y).toNat) % 256 ∧
    (flag = true ↔ 255 < (s.readV x).toNat + (s.readV y).toNat) ∧ OnlyWritesWithFlag s t x sum flag

/-- `SUB Vx, Vy` and `SUBN Vx, Vy` write the difference modulo 256 and NOT borrow; the minuend is `V[x]` for SUB and `V[y]`
for SUBN (rules R129, R134; D15). -/
def Obligations.SubtractsWriteDifferenceAndNotBorrow : Prop :=
  ∀ (x y : Nibble) (s : State),
    (∃ t diff flag, exec (.sub x y) s = .next t ∧
      diff.toNat = ((s.readV x).toNat + 256 - (s.readV y).toNat) % 256 ∧
      (flag = true ↔ (s.readV y).toNat ≤ (s.readV x).toNat) ∧ OnlyWritesWithFlag s t x diff flag) ∧
    ∃ t diff flag, exec (.subReverse x y) s = .next t ∧
      diff.toNat = ((s.readV y).toNat + 256 - (s.readV x).toNat) % 256 ∧
      (flag = true ↔ (s.readV x).toNat ≤ (s.readV y).toNat) ∧ OnlyWritesWithFlag s t x diff flag

/-- `SHR` and `SHL` move the shift source (`V[x]`, or `V[y]` under `SHIFT_QUIRK = from_vy`) by one bit into `V[x]` and
write the bit shifted out (rules R132, R133, R136; D15, D16). -/
def Obligations.ShiftsMoveOneBit : Prop :=
  ∀ (x y : Nibble) (s : State) (src : Byte),
    ((s.cfg.shiftQuirk = .inPlace ∧ src = s.readV x) ∨ (s.cfg.shiftQuirk = .fromVy ∧ src = s.readV y)) →
    (∃ t b flag, exec (.shiftRight x y) s = .next t ∧ b.toNat = src.toNat / 2 ∧
      (flag = true ↔ src.toNat % 2 = 1) ∧ OnlyWritesWithFlag s t x b flag) ∧
    ∃ t b flag, exec (.shiftLeft x y) s = .next t ∧ b.toNat = src.toNat * 2 % 256 ∧
      (flag = true ↔ 128 ≤ src.toNat) ∧ OnlyWritesWithFlag s t x b flag

/-- The flags in the words of the source's §4.2: after ADD the flag is 1 iff the wrapped sum is below the first operand,
after SUB iff the result is not above the minuend. 41_register_alu.md section 1 marks this equivalence as derived. -/
def Obligations.FlagsAgreeWithTheSecondWording : Prop :=
  ∀ (x y : Nibble) (s t : State), x ≠ 0xF#4 →
    (exec (.add x y) s = .next t →
      (t.readV 0xF#4 = 1#8 ↔ (t.readV x).toNat < (s.readV x).toNat) ∧ (t.readV 0xF#4 = 1#8 ∨ t.readV 0xF#4 = 0#8)) ∧
    (exec (.sub x y) s = .next t →
      (t.readV 0xF#4 = 1#8 ↔ (t.readV x).toNat ≤ (s.readV x).toNat) ∧ (t.readV 0xF#4 = 1#8 ∨ t.readV 0xF#4 = 0#8))

/-- `RND Vx, kk` writes the entropy byte masked with `kk` to `V[x]` alone, for every byte the environment may present, and
takes one sampling, the model's own count (rule R138; D7, D21; log entry 3). The statement also speaks of states with
`RND_PRESENT = false`, where rule R138 has no such instruction and no step runs one: there it is the model's own choice
(log entry 12). -/
def Obligations.RandomMasksAnyDraw : Prop :=
  ∀ (x : Nibble) (kk : Byte) (s : State),
    exec (.random x kk) s = .next (randomWith (Config.rndByte s.samples) x kk { s with samples := s.samples + 1 }) ∧
    ∀ r : Byte, OnlyWritesV s (randomWith r x kk s) x (r &&& kk)

/-! ## Index register and memory instructions -/

/-- The address of the k-th byte of a run is `I + k`, reduced modulo 4096; a run of at least one byte that leaves memory
raises under `MEM_OOB = fault` and only there (rule R53; D10). Where the run leaves memory under `fault` rule R53 gives no
address, and the reduced one is how the model represents it (log entry 8): no byte moves there. -/
def Obligations.DataAddressIsIndexPlusOffset : Prop :=
  ∀ (s : State) (n k : Nat), k < n → n ≤ 16 →
    (s.dataRunRaises n = true ↔ RunLeavesMemory s n) ∧
    (s.i.toNat + n - 1 ≤ 0xFFF → (s.dataAddr k).toNat = s.i.toNat + k) ∧
    (s.dataAddr k).toNat = (s.i.toNat + k) % 4096

/-- `LD I, nnn` and `LD F, Vx` write `I` alone: the address, or the address of the glyph of the low nibble of `V[x]`, whose
size `FONT_GLYPH_BYTES` is 5 on this hardware (rules R150, R153; D3). -/
def Obligations.LoadIndexAndFontAddress : Prop :=
  (∀ (x : Nibble) (nnn : Addr) (s : State),
    exec (.loadIndex nnn) s = .next { s with i := nnn } ∧
    ∃ t, exec (.fontAddress x) s = .next t ∧ t = { s with i := t.i } ∧
      t.i.toNat = 0x050 + s.cfg.fontGlyphBytes.val * ((s.readV x).toNat % 16)) ∧
  thisHardware.fontGlyphBytes.val = 5

/-- `ADD I, Vx` adds to `I`; a sum of 0x1000 or more wraps or saturates as `ADD_I_OVERFLOW` says; `VF` is written, 1 on
overflow and 0 otherwise, exactly when `ADD_I_VF = on`; nothing else changes (rule R151; D16, D17). -/
def Obligations.AddIndexFollowsItsConfiguration : Prop :=
  ∀ (x : Nibble) (s : State), ∃ t, exec (.addIndex x) s = .next t ∧
    (s.i.toNat + (s.readV x).toNat < 0x1000 → t.i.toNat = s.i.toNat + (s.readV x).toNat) ∧
    (0x1000 ≤ s.i.toNat + (s.readV x).toNat →
      (s.cfg.addIOverflow = .wrap → t.i.toNat = (s.i.toNat + (s.readV x).toNat) % 0x1000) ∧
      (s.cfg.addIOverflow = .saturate → t.i.toNat = 0xFFF)) ∧
    (s.cfg.addIVf = false → t = { s with i := t.i }) ∧
    (s.cfg.addIVf = true → t = { s with i := t.i, v := t.v } ∧ (∀ z, z ≠ 0xF#4 → t.readV z = s.readV z) ∧
      t.readV 0xF#4 = if 0x1000 ≤ s.i.toNat + (s.readV x).toNat then 1#8 else 0#8)

/-- `LD B, Vx` stores the hundreds, tens and ones of `V[x]` at `I`, `I + 1`, `I + 2`, and changes no other byte and nothing
else; a run that leaves memory raises instead (rule R154). -/
def Obligations.StoreBcdWritesThreeDigits : Prop :=
  ∀ (x : Nibble) (s : State), s.memWf = true →
    (¬RunLeavesMemory s 3 → ∃ t, exec (.storeBcd x) s = .next t ∧ t = { s with mem := t.mem } ∧
      (t.memRead (s.dataAddr 0)).toNat = (s.readV x).toNat / 100 ∧
      (t.memRead (s.dataAddr 1)).toNat = (s.readV x).toNat / 10 % 10 ∧
      (t.memRead (s.dataAddr 2)).toNat = (s.readV x).toNat % 10 ∧
      ∀ a, a ≠ s.dataAddr 0 → a ≠ s.dataAddr 1 → a ≠ s.dataAddr 2 → t.memRead a = s.memRead a) ∧
    (RunLeavesMemory s 3 → ∃ t, exec (.storeBcd x) s = .next t ∧
      Raises s t .dataOutOfRange (s.pc - 2) (some (encode (.storeBcd x))) (some ⟨s.i, 3⟩))

/-- `LD [I], Vx` stores `V[0]` to `V[x]`, `V[k]` at the address of the k-th byte of the run, and changes no other byte and
nothing else, `I` included; a run that leaves memory raises instead (rule R155; D12). -/
def Obligations.StoreRegistersWritesTheBlock : Prop :=
  ∀ (x : Nibble) (s : State), s.memWf = true →
    (¬RunLeavesMemory s (x.toNat + 1) → ∃ t, exec (.storeRegisters x) s = .next t ∧ t = { s with mem := t.mem } ∧
      (∀ k : Nibble, k.toNat ≤ x.toNat → t.memRead (s.dataAddr k.toNat) = s.readV k) ∧
      ∀ a, (∀ k : Nibble, k.toNat ≤ x.toNat → a ≠ s.dataAddr k.toNat) → t.memRead a = s.memRead a) ∧
    (RunLeavesMemory s (x.toNat + 1) → ∃ t, exec (.storeRegisters x) s = .next t ∧
      Raises s t .dataOutOfRange (s.pc - 2) (some (encode (.storeRegisters x))) (some ⟨s.i, x.toNat + 1⟩))

/-- `LD Vx, [I]` loads `V[0]` to `V[x]` from the run at `I`, leaves the registers above `x` alone and changes nothing else,
neither `I` nor any byte of memory; a run that leaves memory raises instead (rule R156; D12). -/
def Obligations.LoadRegistersReadsTheBlock : Prop :=
  ∀ (x : Nibble) (s : State),
    (¬RunLeavesMemory s (x.toNat + 1) → ∃ t, exec (.loadRegisters x) s = .next t ∧ t = { s with v := t.v } ∧
      (∀ k : Nibble, k.toNat ≤ x.toNat → t.readV k = s.memRead (s.dataAddr k.toNat)) ∧
      ∀ z : Nibble, x.toNat < z.toNat → t.readV z = s.readV z) ∧
    (RunLeavesMemory s (x.toNat + 1) → ∃ t, exec (.loadRegisters x) s = .next t ∧
      Raises s t .dataOutOfRange (s.pc - 2) (some (encode (.loadRegisters x))) (some ⟨s.i, x.toNat + 1⟩))

/-- `DataOutOfRange` is raised by the four I-based instructions exactly when their run has a byte, leaves memory and
`MEM_OOB = fault`; under `wrap` it is never raised (rule R218; D10). -/
def Obligations.DataOutOfRangeExactlyWhenTheRunLeaves : Prop :=
  ∀ (i : Instr) (n : Nat) (s : State), dataRunLength i = some n →
    (RunLeavesMemory s n → ∃ t, exec i s = .next t ∧
      Raises s t .dataOutOfRange (s.pc - 2) (some (encode i)) (some ⟨s.i, n⟩)) ∧
    (¬RunLeavesMemory s n → ∃ t, exec i s = .next t ∧ t.fault = s.fault ∧ t.pc = s.pc)

/-- Fetch is coherent with stores: a block store over the two bytes that come next makes the word `V0`, `V1` the next word
fetched (20_memory.md section 8; D29). -/
def Obligations.StoreIsSeenByTheNextFetch : Prop :=
  ∀ (x : Nibble) (s : State), s.memWf = true → s.i.setWidth 16 = s.pc → 1 ≤ x.toNat →
    s.i.toNat + x.toNat ≤ 0xFFF →
    ∃ t w, exec (.storeRegisters x) s = .next t ∧ t.fetch16 t.pc = some w ∧
      w.toNat = (s.readV 0x0#4).toNat * 256 + (s.readV 0x1#4).toNat

/-! ## Timers and keys -/

/-- `LD Vx, DT` writes the delay timer to `V[x]` alone; `LD DT, Vx` and `LD ST, Vx` write their timer alone (rules R170 to
R172). -/
def Obligations.TimerInstructionsMoveOneByte : Prop :=
  ∀ (x : Nibble) (s : State),
    (∃ t, exec (.loadDelay x) s = .next t ∧ OnlyWritesV s t x s.dt) ∧
    exec (.setDelay x) s = .next { s with dt := s.readV x } ∧
    exec (.setSound x) s = .next { s with st := s.readV x }

/-- `SKP Vx` and `SKNP Vx` sample the key that the low nibble of `V[x]` names and skip iff it is held, or not held;
nothing else changes but the model's own sampling count (rules R173, R174, R176; D18, D21; log entry 3). The second part
says the same for either answer of the environment. -/
def Obligations.KeySkipsFollowTheSampledKey : Prop :=
  ∀ (x key : Nibble) (s : State), key.toNat = (s.readV x).toNat % 16 →
    exec (.skipKeyPressed x) s = .next { s with
      pc := if Config.keyDown s.samples key then s.pc + 2 else s.pc
      samples := s.samples + 1 } ∧
    exec (.skipKeyNotPressed x) s = .next { s with
      pc := if Config.keyDown s.samples key then s.pc else s.pc + 2
      samples := s.samples + 1 } ∧
    ∀ held : Bool, skipKeyPressedWith held s = { s with pc := if held then s.pc + 2 else s.pc } ∧
      skipKeyNotPressedWith held s = { s with pc := if held then s.pc else s.pc + 2 }

/-- `LD Vx, K` samples the key event once: with a key it writes the key's number to `V[x]` alone and goes on; with none
`pc` is the instruction's own address again and nothing else changes, but the model's own sampling count (rule R175; D19,
D21; log entry 3). The second part says the same for every answer of the environment. -/
def Obligations.WaitKeyRetriesUntilAKey : Prop :=
  ∀ (x : Nibble) (s : State),
    exec (.waitKey x) s = .next (waitKeyWith (Config.keyEvent s.samples) x { s with samples := s.samples + 1 }) ∧
    waitKeyWith none x s = { s with pc := s.pc - 2 } ∧
    ∀ k : Nibble, ∃ b : Byte, b.toNat = k.toNat ∧ OnlyWritesV s (waitKeyWith (some k) x s) x b

/-- `timer_tick` takes one off each timer, never below zero, and changes nothing else, whether or not a fault is held (rule
R222; D22). -/
def Obligations.TimerTickCountsDown : Prop :=
  ∀ s : State, ∃ t, command .timerTick s = .next ⟨.ok, t⟩ ∧ t = { s with dt := t.dt, st := t.st } ∧
    t.dt.toNat = s.dt.toNat - 1 ∧ t.st.toNat = s.st.toNat - 1

/-- No instruction reads the sound timer: two states that differ in `ST` alone step to states that differ in `ST` alone
(10_state.md section 6). -/
def Obligations.SoundTimerIsNeverRead : Prop :=
  ∀ (s t : State) (b : Byte), step s = .next t →
    ∃ u, step { s with st := b } = .next u ∧ { u with st := t.st } = t

/-! ## Display -/

/-- `CLS` clears every pixel and changes nothing else (rule R190). -/
def Obligations.ClearScreenClearsEveryPixel : Prop :=
  ∀ s : State, ∃ t, exec .clearScreen s = .next t ∧ t = { s with fb := t.fb } ∧ ∀ r c, getPixel t.fb r c = false

/-- `DRW Vx, Vy, n` inverts exactly the pixels of the grid under a lit sprite bit; nothing wraps to another edge; `VF` is 1
iff some lit bit met a set pixel, else 0; nothing else changes. A run that leaves memory raises instead (rule R191; D24). -/
def Obligations.DrawInvertsThePixelsUnderTheSprite : Prop :=
  ∀ (x y n : Nibble) (s : State),
    (¬RunLeavesMemory s n.toNat → ∃ t, exec (.draw x y n) s = .next t ∧ t = { s with v := t.v, fb := t.fb } ∧
      (∀ z, z ≠ 0xF#4 → t.readV z = s.readV z) ∧
      (∀ r c, r < 32 → c < 64 → (getPixel t.fb r c = !getPixel s.fb r c ↔ SpriteLit s x y n r c)) ∧
      ((t.readV 0xF#4 = 1#8 ∧ ∃ r c, SpriteLit s x y n r c ∧ getPixel s.fb r c = true) ∨
        (t.readV 0xF#4 = 0#8 ∧ ∀ r c, SpriteLit s x y n r c → getPixel s.fb r c = false))) ∧
    (RunLeavesMemory s n.toNat → ∃ t, exec (.draw x y n) s = .next t ∧
      Raises s t .dataOutOfRange (s.pc - 2) (some (encode (.draw x y n))) (some ⟨s.i, n.toNat⟩))

/-- Drawing the same sprite again at the same place restores every pixel; from a clear display a sprite with a lit bit
inside the grid sets `VF` to 1 on the second draw. Formalises the closing rule of 44_display.md, which the spec marks as
derived; its flag sentence is stated for the clear display, where it holds. -/
def Obligations.DrawingTwiceRestoresTheDisplay : Prop :=
  ∀ (x y n : Nibble) (s t u : State), exec (.draw x y n) s = .next t → ¬RunLeavesMemory s n.toNat →
    u.fb = t.fb → u.i = s.i → u.mem = s.mem → u.cfg = s.cfg → u.readV x = s.readV x → u.readV y = s.readV y →
    ∃ w, exec (.draw x y n) u = .next w ∧ w.fb = s.fb ∧
      ((∀ r c, getPixel s.fb r c = false) → (∃ r c, r < 32 ∧ c < 64 ∧ SpriteLit s x y n r c) → w.readV 0xF#4 = 1#8)

/-- Only CLS and DRW among the instructions, and only `reset` among the other commands, change the framebuffer (rule
R193). -/
def Obligations.OnlyClearAndDrawChangePixels : Prop :=
  (∀ (i : Instr) (s t : State), exec i s = .next t → i ≠ .clearScreen → (∀ x y n, i ≠ .draw x y n) → t.fb = s.fb) ∧
  ∀ (c : Command) (s : State) (q : Reply), command c s = .next q → c ≠ .reset → c ≠ .cpuTick → q.state.fb = s.fb

/-- The read-out is exactly the set of the coordinates of the set pixels (rule R33). -/
def Obligations.ReadOutIsTheSetPixels : Prop :=
  ∀ (s : State) (r c : Nat), (r, c) ∈ s.readOut ↔ r < 32 ∧ c < 64 ∧ getPixel s.fb r c = true

/-! ## Host commands and the whole machine -/

/-- Every command ends in a reply: a `cpu_tick` in a next state, with the record reported iff the fault register holds one;
`timer_tick` and `reset` in a next state; `load` in a next state, or in `LoadError` with the state unchanged (rule R210). -/
def Obligations.EveryCommandEndsInAReply : Prop :=
  ∀ (c : Command) (s : State), ∃ q, command c s = .next q ∧
    (c = .cpuTick → (∃ t, step s = .next t ∧ q.state = t) ∧
      ((q.response = .ok ∧ q.state.fault = none) ∨ ∃ r, q.response = .faulted r ∧ q.state.fault = some r)) ∧
    (c = .timerTick ∨ c = .reset → q.response = .ok) ∧
    (∀ image, c = .load image → q.response = .ok ∨ (q.response = .loadError .tooLarge ∧ q.state = s))

/-- `load` copies an image of at most 3584 bytes to 0x200 onward, changing no other byte and nothing else; a longer image
is turned away with no change (rule R243; D26). -/
def Obligations.LoadCopiesTheImage : Prop :=
  ∀ (image : List Byte) (s : State), s.memWf = true →
    (image.length ≤ 3584 → ∃ t, command (.load image) s = .next ⟨.ok, t⟩ ∧ t = { s with mem := t.mem } ∧
      (∀ k (h : k < image.length), t.memRead (BitVec.ofNat 12 (0x200 + k)) = image[k]) ∧
      ∀ a : Addr, (a.toNat < 0x200 ∨ 0x200 + image.length ≤ a.toNat) → t.memRead a = s.memRead a) ∧
    (3584 < image.length → command (.load image) s = .next ⟨.loadError .tooLarge, s⟩)

/-- `reset` puts every piece of state to its value in the reset table and leaves the configuration, and the machine this
model starts from is in that state with this hardware's configuration (rules R39, R240; D2, D3). -/
def Obligations.ResetGivesTheTableOfResetValues : Prop :=
  IsReset State.reset ∧ State.reset.cfg = thisHardware ∧
  ∀ s : State, ∃ t, command .reset s = .next ⟨.ok, t⟩ ∧ IsReset t ∧ t.cfg = s.cfg

/-- No instruction and no command changes the configuration (10_state.md section 7; D16). -/
def Obligations.ConfigurationNeverChanges : Prop :=
  (∀ (i : Instr) (s t : State), exec i s = .next t → t.cfg = s.cfg) ∧
  ∀ (c : Command) (s : State) (q : Reply), command c s = .next q → q.state.cfg = s.cfg

/-- The writers of each piece of state, row by row of the access table of 10_state.md section 1: an instruction that changes
a register, `pc`, the stack, `I`, a timer, the framebuffer or memory is one the table lists for it, but that raising a fault
puts `pc` back to the instruction's address; the fault register changes only by raising; and only RND, SKP, SKNP and LD Vx, K
take a sampling. The spec marks the table as derived; the sampling count is the model's (log entry 3). -/
def Obligations.EachPieceOfStateHasItsWriters : Prop :=
  ∀ (i : Instr) (s t : State), exec i s = .next t →
    (∀ z, t.readV z ≠ s.readV z → writesV s.cfg i z = true) ∧
    (t.pc ≠ s.pc → writesPc i = true ∨ ∃ r, t = { s with pc := s.pc - 2, fault := some r }) ∧
    (t.stack ≠ s.stack → i = .ret ∨ ∃ nnn, i = .call nnn) ∧
    (t.i ≠ s.i → (∃ nnn, i = .loadIndex nnn) ∨ (∃ x, i = .addIndex x) ∨ ∃ x, i = .fontAddress x) ∧
    (t.dt ≠ s.dt → ∃ x, i = .setDelay x) ∧ (t.st ≠ s.st → ∃ x, i = .setSound x) ∧
    (t.fb ≠ s.fb → i = .clearScreen ∨ ∃ x y n, i = .draw x y n) ∧
    ((∃ a, t.memRead a ≠ s.memRead a) → (∃ x, i = .storeBcd x) ∨ ∃ x, i = .storeRegisters x) ∧
    (t.fault ≠ s.fault → ∃ r, t = { s with pc := s.pc - 2, fault := some r }) ∧
    (t.samples ≠ s.samples → (∃ x kk, i = .random x kk) ∨ (∃ x, i = .skipKeyPressed x) ∨
      (∃ x, i = .skipKeyNotPressed x) ∨ ∃ x, i = .waitKey x)

/-- The invariant holds right after reset, under every configuration. The values it is checked on are the reset table's;
the canonical form of memory is the model's own (log entry 8). -/
def Obligations.InvariantHoldsAtReset : Prop :=
  Inv State.reset ∧ ∀ s : State, Inv s.hostReset

/-- Every step keeps the invariant: memory canonical, which is the model's own form (log entry 8), the stack within
`STACK_DEPTH`, return addresses at most 0x1000 (a CALL is fetched at 0xFFE or below), `pc` at most 0x10FE, and a held fault
record well formed and naming `pc`. -/
def Obligations.InvariantKeptByEveryStep : Prop :=
  ∀ s t : State, Inv s → step s = .next t → Inv t

/-- Every sequence of host commands, in any order the host chooses, keeps the invariant and completes. That memory is
canonical, one clause of the invariant, is the model's own form (log entry 8). -/
def Obligations.InvariantKeptByEveryRun : Prop :=
  ∀ (cs : List Command) (s : State), Inv s → ∃ t, runCommands cs s = .next t ∧ Inv t

/-- From a fixed loop, and from a fault stop, every further step leaves the state unchanged. Formalises 70_reset_and_hazards.md
section 5, which the spec marks as derived. -/
def Obligations.FixedLoopAndFaultStopStay : Prop :=
  ∀ (s : State) (k : Nat), atFixedLoop s ∨ atFaultStop s → Sys2Proof.core.run k s = .next s

/-- The host's placing of a word is faithful (log entry 10, the model's choice): the state differs from the given one in
`pc`, which is the fetch address (`pc` itself, or 0x200 where nothing can be fetched from `pc`), in the fault register, which
is clear, and in the two bytes of memory at the fetch address, which are the word's, every other byte reading as before; and
the next step runs exactly the instruction placed. -/
def Obligations.PlacedWordIsRunNext : Prop :=
  ∀ (s : State) (i : Instr), s.memWf = true → i.wellFormed s.cfg.rndPresent = true →
    ∃ t, s.withFetchWord 16 (encode i).toNat = t ∧ t = { s with pc := s.fetchAddress, mem := t.mem, fault := none } ∧
      (s.pc.toNat + 1 ≤ 0xFFF → s.fetchAddress = s.pc) ∧ (0xFFF < s.pc.toNat + 1 → s.fetchAddress = 0x200#16) ∧
      t.memWf = true ∧ t.byteAt s.fetchAddress.toNat = highByte (encode i) ∧
      t.byteAt (s.fetchAddress.toNat + 1) = lowByte (encode i) ∧
      (∀ a : Addr, a.toNat ≠ s.fetchAddress.toNat → a.toNat ≠ s.fetchAddress.toNat + 1 → t.memRead a = s.memRead a) ∧
      step t = exec i { t with pc := s.fetchAddress + 2 }
end

