-- ==== Sys2Proof/Laws/Decode.lean ====
section
/-! SUPPORT. The fields of a packed word, a word packed again from its fields, and the bytes of a word (rules R54, R71,
R84). A field and a packing are first given as numbers, so that each law is linear arithmetic. -/

namespace Sys2Proof

variable (c x y n : Nibble) (kk : Byte) (nnn : Addr) (w : Word)

/-! Fields as numbers. -/

theorem toNat_fieldClass : (fieldClass w).toNat = w.toNat / 4096 := by
  have := w.isLt
  simp only [fieldClass, BitVec.extractLsb'_toNat, Nat.shiftRight_eq_div_pow]; omega

theorem toNat_fieldX : (fieldX w).toNat = w.toNat / 256 % 16 := by
  simp only [fieldX, BitVec.extractLsb'_toNat, Nat.shiftRight_eq_div_pow]

theorem toNat_fieldY : (fieldY w).toNat = w.toNat / 16 % 16 := by
  simp only [fieldY, BitVec.extractLsb'_toNat, Nat.shiftRight_eq_div_pow]

theorem toNat_fieldN : (fieldN w).toNat = w.toNat % 16 := by
  simp only [fieldN, BitVec.extractLsb'_toNat, Nat.shiftRight_eq_div_pow]; omega

theorem toNat_fieldKk : (fieldKk w).toNat = w.toNat % 256 := by
  simp only [fieldKk, BitVec.extractLsb'_toNat, Nat.shiftRight_eq_div_pow]; omega

theorem toNat_fieldNnn : (fieldNnn w).toNat = w.toNat % 4096 := by
  simp only [fieldNnn, BitVec.extractLsb'_toNat, Nat.shiftRight_eq_div_pow]; omega

/-! Packings as numbers. -/

theorem toNat_append_mul {a b : Nat} (u : BitVec a) (v : BitVec b) : (u ++ v).toNat = u.toNat * 2 ^ b + v.toNat := by
  rw [BitVec.toNat_append, ← Nat.shiftLeft_add_eq_or_of_lt v.isLt, Nat.shiftLeft_eq]

theorem toNat_packAddr : (packAddr c nnn).toNat = c.toNat * 4096 + nnn.toNat := toNat_append_mul c nnn

theorem toNat_packByte : (packByte c x kk).toNat = c.toNat * 4096 + x.toNat * 256 + kk.toNat := by
  have h1 := toNat_append_mul (c ++ x) kk
  have h2 := toNat_append_mul c x
  have : (packByte c x kk).toNat = (c ++ x ++ kk).toNat := rfl
  omega

theorem toNat_packRegs : (packRegs c x y n).toNat = c.toNat * 4096 + x.toNat * 256 + y.toNat * 16 + n.toNat := by
  have h1 := toNat_append_mul (c ++ x ++ y) n
  have h2 := toNat_append_mul (c ++ x) y
  have h3 := toNat_append_mul c x
  have : (packRegs c x y n).toNat = (c ++ x ++ y ++ n).toNat := rfl
  omega

/-! The fields of a packed word. -/

@[simp] theorem fieldClass_packAddr : fieldClass (packAddr c nnn) = c := by
  apply BitVec.eq_of_toNat_eq; rw [toNat_fieldClass, toNat_packAddr]; omega

@[simp] theorem fieldNnn_packAddr : fieldNnn (packAddr c nnn) = nnn := by
  apply BitVec.eq_of_toNat_eq; rw [toNat_fieldNnn, toNat_packAddr]; omega

@[simp] theorem fieldClass_packByte : fieldClass (packByte c x kk) = c := by
  apply BitVec.eq_of_toNat_eq; rw [toNat_fieldClass, toNat_packByte]; omega

@[simp] theorem fieldX_packByte : fieldX (packByte c x kk) = x := by
  apply BitVec.eq_of_toNat_eq; rw [toNat_fieldX, toNat_packByte]; omega

@[simp] theorem fieldKk_packByte : fieldKk (packByte c x kk) = kk := by
  apply BitVec.eq_of_toNat_eq; rw [toNat_fieldKk, toNat_packByte]; omega

@[simp] theorem fieldClass_packRegs : fieldClass (packRegs c x y n) = c := by
  apply BitVec.eq_of_toNat_eq; rw [toNat_fieldClass, toNat_packRegs]; omega

@[simp] theorem fieldX_packRegs : fieldX (packRegs c x y n) = x := by
  apply BitVec.eq_of_toNat_eq; rw [toNat_fieldX, toNat_packRegs]; omega

@[simp] theorem fieldY_packRegs : fieldY (packRegs c x y n) = y := by
  apply BitVec.eq_of_toNat_eq; rw [toNat_fieldY, toNat_packRegs]; omega

@[simp] theorem fieldN_packRegs : fieldN (packRegs c x y n) = n := by
  apply BitVec.eq_of_toNat_eq; rw [toNat_fieldN, toNat_packRegs]; omega

/-! A word packed again from its fields. -/

@[simp] theorem packAddr_fields : packAddr (fieldClass w) (fieldNnn w) = w := by
  apply BitVec.eq_of_toNat_eq; rw [toNat_packAddr, toNat_fieldClass, toNat_fieldNnn]; omega

@[simp] theorem packByte_fields : packByte (fieldClass w) (fieldX w) (fieldKk w) = w := by
  apply BitVec.eq_of_toNat_eq; rw [toNat_packByte, toNat_fieldClass, toNat_fieldX, toNat_fieldKk]; omega

@[simp] theorem packRegs_fields : packRegs (fieldClass w) (fieldX w) (fieldY w) (fieldN w) = w := by
  apply BitVec.eq_of_toNat_eq
  rw [toNat_packRegs, toNat_fieldClass, toNat_fieldX, toNat_fieldY, toNat_fieldN]; omega

/-! The bytes of a word. -/

theorem toNat_highByte : (highByte w).toNat = w.toNat / 256 := by
  have := w.isLt
  simp only [highByte, BitVec.extractLsb'_toNat, Nat.shiftRight_eq_div_pow]; omega

theorem toNat_lowByte : (lowByte w).toNat = w.toNat % 256 := by
  simp only [lowByte, BitVec.extractLsb'_toNat, Nat.shiftRight_eq_div_pow]; omega

theorem toNat_wordOfBytes (hi lo : Byte) : (wordOfBytes hi lo).toNat = hi.toNat * 256 + lo.toNat :=
  toNat_append_mul hi lo

@[simp] theorem wordOfBytes_bytes : wordOfBytes (highByte w) (lowByte w) = w := by
  apply BitVec.eq_of_toNat_eq; rw [toNat_wordOfBytes, toNat_highByte, toNat_lowByte]; omega

@[simp] theorem highByte_wordOfBytes (hi lo : Byte) : highByte (wordOfBytes hi lo) = hi := by
  apply BitVec.eq_of_toNat_eq; rw [toNat_highByte, toNat_wordOfBytes]; omega

@[simp] theorem lowByte_wordOfBytes (hi lo : Byte) : lowByte (wordOfBytes hi lo) = lo := by
  apply BitVec.eq_of_toNat_eq; rw [toNat_lowByte, toNat_wordOfBytes]; omega

/-- The decoder reads an instruction's own bytes as it reads its word, and leaves the bytes after them. -/
theorem decodeBytes_encodeBytes (rnd : Bool) (i : Instr) (rest : List Byte) :
    decodeBytes rnd (encodeBytes i ++ rest) = (decode rnd (encode i)).map (fun j => (j, rest)) := by
  simp [decodeBytes, encodeBytes]

end Sys2Proof
end

