-- ==== Sys2Proof/Laws/State.lean ====
section
/-! SUPPORT. One lemma per field per update of the state, so that no proof unfolds a record update. -/

namespace Sys2Proof.Machine

variable (s : State)

@[simp] theorem State.writeV_v (x : Nibble) (b : Byte) : (s.writeV x b).v = s.v.set x.toNat b x.isLt := rfl
@[simp] theorem State.writeV_i (x : Nibble) (b : Byte) : (s.writeV x b).i = s.i := rfl
@[simp] theorem State.writeV_pc (x : Nibble) (b : Byte) : (s.writeV x b).pc = s.pc := rfl
@[simp] theorem State.writeV_stack (x : Nibble) (b : Byte) : (s.writeV x b).stack = s.stack := rfl
@[simp] theorem State.writeV_mem (x : Nibble) (b : Byte) : (s.writeV x b).mem = s.mem := rfl
@[simp] theorem State.writeV_dt (x : Nibble) (b : Byte) : (s.writeV x b).dt = s.dt := rfl
@[simp] theorem State.writeV_st (x : Nibble) (b : Byte) : (s.writeV x b).st = s.st := rfl
@[simp] theorem State.writeV_fb (x : Nibble) (b : Byte) : (s.writeV x b).fb = s.fb := rfl
@[simp] theorem State.writeV_fault (x : Nibble) (b : Byte) : (s.writeV x b).fault = s.fault := rfl
@[simp] theorem State.writeV_cfg (x : Nibble) (b : Byte) : (s.writeV x b).cfg = s.cfg := rfl
@[simp] theorem State.writeV_samples (x : Nibble) (b : Byte) : (s.writeV x b).samples = s.samples := rfl

@[simp] theorem State.memWrite_v (a : Addr) (b : Byte) : (s.memWrite a b).v = s.v := rfl
@[simp] theorem State.memWrite_i (a : Addr) (b : Byte) : (s.memWrite a b).i = s.i := rfl
@[simp] theorem State.memWrite_pc (a : Addr) (b : Byte) : (s.memWrite a b).pc = s.pc := rfl
@[simp] theorem State.memWrite_stack (a : Addr) (b : Byte) : (s.memWrite a b).stack = s.stack := rfl
@[simp] theorem State.memWrite_mem (a : Addr) (b : Byte) : (s.memWrite a b).mem =
    Memory.write s.cfg.fontData s.mem a.toNat b := rfl
@[simp] theorem State.memWrite_dt (a : Addr) (b : Byte) : (s.memWrite a b).dt = s.dt := rfl
@[simp] theorem State.memWrite_st (a : Addr) (b : Byte) : (s.memWrite a b).st = s.st := rfl
@[simp] theorem State.memWrite_fb (a : Addr) (b : Byte) : (s.memWrite a b).fb = s.fb := rfl
@[simp] theorem State.memWrite_fault (a : Addr) (b : Byte) : (s.memWrite a b).fault = s.fault := rfl
@[simp] theorem State.memWrite_cfg (a : Addr) (b : Byte) : (s.memWrite a b).cfg = s.cfg := rfl
@[simp] theorem State.memWrite_samples (a : Addr) (b : Byte) : (s.memWrite a b).samples = s.samples := rfl

@[simp] theorem State.store_v (a : Addr) (bs : List Byte) : (s.store a bs).v = s.v := rfl
@[simp] theorem State.store_i (a : Addr) (bs : List Byte) : (s.store a bs).i = s.i := rfl
@[simp] theorem State.store_pc (a : Addr) (bs : List Byte) : (s.store a bs).pc = s.pc := rfl
@[simp] theorem State.store_stack (a : Addr) (bs : List Byte) : (s.store a bs).stack = s.stack := rfl
@[simp] theorem State.store_mem (a : Addr) (bs : List Byte) : (s.store a bs).mem = Memory.writeRun s.cfg.fontData s.mem a bs :=
  rfl
@[simp] theorem State.store_dt (a : Addr) (bs : List Byte) : (s.store a bs).dt = s.dt := rfl
@[simp] theorem State.store_st (a : Addr) (bs : List Byte) : (s.store a bs).st = s.st := rfl
@[simp] theorem State.store_fb (a : Addr) (bs : List Byte) : (s.store a bs).fb = s.fb := rfl
@[simp] theorem State.store_fault (a : Addr) (bs : List Byte) : (s.store a bs).fault = s.fault := rfl
@[simp] theorem State.store_cfg (a : Addr) (bs : List Byte) : (s.store a bs).cfg = s.cfg := rfl
@[simp] theorem State.store_samples (a : Addr) (bs : List Byte) : (s.store a bs).samples = s.samples := rfl

@[simp] theorem State.writeData_v (bs : List Byte) : (s.writeData bs).v = s.v := rfl
@[simp] theorem State.writeData_i (bs : List Byte) : (s.writeData bs).i = s.i := rfl
@[simp] theorem State.writeData_pc (bs : List Byte) : (s.writeData bs).pc = s.pc := rfl
@[simp] theorem State.writeData_stack (bs : List Byte) : (s.writeData bs).stack = s.stack := rfl
@[simp] theorem State.writeData_mem (bs : List Byte) : (s.writeData bs).mem =
    Memory.writeRun s.cfg.fontData s.mem (s.dataAddr 0) bs := rfl
@[simp] theorem State.writeData_dt (bs : List Byte) : (s.writeData bs).dt = s.dt := rfl
@[simp] theorem State.writeData_st (bs : List Byte) : (s.writeData bs).st = s.st := rfl
@[simp] theorem State.writeData_fb (bs : List Byte) : (s.writeData bs).fb = s.fb := rfl
@[simp] theorem State.writeData_fault (bs : List Byte) : (s.writeData bs).fault = s.fault := rfl
@[simp] theorem State.writeData_cfg (bs : List Byte) : (s.writeData bs).cfg = s.cfg := rfl
@[simp] theorem State.writeData_samples (bs : List Byte) : (s.writeData bs).samples = s.samples := rfl

@[simp] theorem State.push_v (a : Word) : (s.push a).v = s.v := rfl
@[simp] theorem State.push_i (a : Word) : (s.push a).i = s.i := rfl
@[simp] theorem State.push_pc (a : Word) : (s.push a).pc = s.pc := rfl
@[simp] theorem State.push_stack (a : Word) : (s.push a).stack = s.stack ++ [a] := rfl
@[simp] theorem State.push_mem (a : Word) : (s.push a).mem = s.mem := rfl
@[simp] theorem State.push_dt (a : Word) : (s.push a).dt = s.dt := rfl
@[simp] theorem State.push_st (a : Word) : (s.push a).st = s.st := rfl
@[simp] theorem State.push_fb (a : Word) : (s.push a).fb = s.fb := rfl
@[simp] theorem State.push_fault (a : Word) : (s.push a).fault = s.fault := rfl
@[simp] theorem State.push_cfg (a : Word) : (s.push a).cfg = s.cfg := rfl
@[simp] theorem State.push_samples (a : Word) : (s.push a).samples = s.samples := rfl

@[simp] theorem State.dropTop_v : (s.dropTop).v = s.v := rfl
@[simp] theorem State.dropTop_i : (s.dropTop).i = s.i := rfl
@[simp] theorem State.dropTop_pc : (s.dropTop).pc = s.pc := rfl
@[simp] theorem State.dropTop_stack : (s.dropTop).stack = s.stack.dropLast := rfl
@[simp] theorem State.dropTop_mem : (s.dropTop).mem = s.mem := rfl
@[simp] theorem State.dropTop_dt : (s.dropTop).dt = s.dt := rfl
@[simp] theorem State.dropTop_st : (s.dropTop).st = s.st := rfl
@[simp] theorem State.dropTop_fb : (s.dropTop).fb = s.fb := rfl
@[simp] theorem State.dropTop_fault : (s.dropTop).fault = s.fault := rfl
@[simp] theorem State.dropTop_cfg : (s.dropTop).cfg = s.cfg := rfl
@[simp] theorem State.dropTop_samples : (s.dropTop).samples = s.samples := rfl

@[simp] theorem State.setPc_v (a : Word) : (s.setPc a).v = s.v := rfl
@[simp] theorem State.setPc_i (a : Word) : (s.setPc a).i = s.i := rfl
@[simp] theorem State.setPc_pc (a : Word) : (s.setPc a).pc = a := rfl
@[simp] theorem State.setPc_stack (a : Word) : (s.setPc a).stack = s.stack := rfl
@[simp] theorem State.setPc_mem (a : Word) : (s.setPc a).mem = s.mem := rfl
@[simp] theorem State.setPc_dt (a : Word) : (s.setPc a).dt = s.dt := rfl
@[simp] theorem State.setPc_st (a : Word) : (s.setPc a).st = s.st := rfl
@[simp] theorem State.setPc_fb (a : Word) : (s.setPc a).fb = s.fb := rfl
@[simp] theorem State.setPc_fault (a : Word) : (s.setPc a).fault = s.fault := rfl
@[simp] theorem State.setPc_cfg (a : Word) : (s.setPc a).cfg = s.cfg := rfl
@[simp] theorem State.setPc_samples (a : Word) : (s.setPc a).samples = s.samples := rfl

@[simp] theorem State.setI_v (a : Addr) : (s.setI a).v = s.v := rfl
@[simp] theorem State.setI_i (a : Addr) : (s.setI a).i = a := rfl
@[simp] theorem State.setI_pc (a : Addr) : (s.setI a).pc = s.pc := rfl
@[simp] theorem State.setI_stack (a : Addr) : (s.setI a).stack = s.stack := rfl
@[simp] theorem State.setI_mem (a : Addr) : (s.setI a).mem = s.mem := rfl
@[simp] theorem State.setI_dt (a : Addr) : (s.setI a).dt = s.dt := rfl
@[simp] theorem State.setI_st (a : Addr) : (s.setI a).st = s.st := rfl
@[simp] theorem State.setI_fb (a : Addr) : (s.setI a).fb = s.fb := rfl
@[simp] theorem State.setI_fault (a : Addr) : (s.setI a).fault = s.fault := rfl
@[simp] theorem State.setI_cfg (a : Addr) : (s.setI a).cfg = s.cfg := rfl
@[simp] theorem State.setI_samples (a : Addr) : (s.setI a).samples = s.samples := rfl

@[simp] theorem State.advance_v : (s.advance).v = s.v := rfl
@[simp] theorem State.advance_i : (s.advance).i = s.i := rfl
@[simp] theorem State.advance_pc : (s.advance).pc = s.pc + 2 := rfl
@[simp] theorem State.advance_stack : (s.advance).stack = s.stack := rfl
@[simp] theorem State.advance_mem : (s.advance).mem = s.mem := rfl
@[simp] theorem State.advance_dt : (s.advance).dt = s.dt := rfl
@[simp] theorem State.advance_st : (s.advance).st = s.st := rfl
@[simp] theorem State.advance_fb : (s.advance).fb = s.fb := rfl
@[simp] theorem State.advance_fault : (s.advance).fault = s.fault := rfl
@[simp] theorem State.advance_cfg : (s.advance).cfg = s.cfg := rfl
@[simp] theorem State.advance_samples : (s.advance).samples = s.samples := rfl

@[simp] theorem State.sampled_v : (s.sampled).v = s.v := rfl
@[simp] theorem State.sampled_i : (s.sampled).i = s.i := rfl
@[simp] theorem State.sampled_pc : (s.sampled).pc = s.pc := rfl
@[simp] theorem State.sampled_stack : (s.sampled).stack = s.stack := rfl
@[simp] theorem State.sampled_mem : (s.sampled).mem = s.mem := rfl
@[simp] theorem State.sampled_dt : (s.sampled).dt = s.dt := rfl
@[simp] theorem State.sampled_st : (s.sampled).st = s.st := rfl
@[simp] theorem State.sampled_fb : (s.sampled).fb = s.fb := rfl
@[simp] theorem State.sampled_fault : (s.sampled).fault = s.fault := rfl
@[simp] theorem State.sampled_cfg : (s.sampled).cfg = s.cfg := rfl
@[simp] theorem State.sampled_samples : (s.sampled).samples = s.samples + 1 := rfl

@[simp] theorem State.timerTick_v : (s.timerTick).v = s.v := rfl
@[simp] theorem State.timerTick_i : (s.timerTick).i = s.i := rfl
@[simp] theorem State.timerTick_pc : (s.timerTick).pc = s.pc := rfl
@[simp] theorem State.timerTick_stack : (s.timerTick).stack = s.stack := rfl
@[simp] theorem State.timerTick_mem : (s.timerTick).mem = s.mem := rfl
@[simp] theorem State.timerTick_dt : (s.timerTick).dt = tickDown s.dt := rfl
@[simp] theorem State.timerTick_st : (s.timerTick).st = tickDown s.st := rfl
@[simp] theorem State.timerTick_fb : (s.timerTick).fb = s.fb := rfl
@[simp] theorem State.timerTick_fault : (s.timerTick).fault = s.fault := rfl
@[simp] theorem State.timerTick_cfg : (s.timerTick).cfg = s.cfg := rfl
@[simp] theorem State.timerTick_samples : (s.timerTick).samples = s.samples := rfl

@[simp] theorem State.raiseAt_v (ipc : Word) (c : FaultCode) (w : Option Word) (d : Option DataInfo) : (s.raiseAt ipc c w d).v = s.v := rfl
@[simp] theorem State.raiseAt_i (ipc : Word) (c : FaultCode) (w : Option Word) (d : Option DataInfo) : (s.raiseAt ipc c w d).i = s.i := rfl
@[simp] theorem State.raiseAt_pc (ipc : Word) (c : FaultCode) (w : Option Word) (d : Option DataInfo) : (s.raiseAt ipc c w d).pc = ipc := rfl
@[simp] theorem State.raiseAt_stack (ipc : Word) (c : FaultCode) (w : Option Word) (d : Option DataInfo) : (s.raiseAt ipc c w d).stack = s.stack := rfl
@[simp] theorem State.raiseAt_mem (ipc : Word) (c : FaultCode) (w : Option Word) (d : Option DataInfo) : (s.raiseAt ipc c w d).mem = s.mem := rfl
@[simp] theorem State.raiseAt_dt (ipc : Word) (c : FaultCode) (w : Option Word) (d : Option DataInfo) : (s.raiseAt ipc c w d).dt = s.dt := rfl
@[simp] theorem State.raiseAt_st (ipc : Word) (c : FaultCode) (w : Option Word) (d : Option DataInfo) : (s.raiseAt ipc c w d).st = s.st := rfl
@[simp] theorem State.raiseAt_fb (ipc : Word) (c : FaultCode) (w : Option Word) (d : Option DataInfo) : (s.raiseAt ipc c w d).fb = s.fb := rfl
@[simp] theorem State.raiseAt_fault (ipc : Word) (c : FaultCode) (w : Option Word) (d : Option DataInfo) : (s.raiseAt ipc c w d).fault = some ⟨c, ipc, w, d⟩ := rfl
@[simp] theorem State.raiseAt_cfg (ipc : Word) (c : FaultCode) (w : Option Word) (d : Option DataInfo) : (s.raiseAt ipc c w d).cfg = s.cfg := rfl
@[simp] theorem State.raiseAt_samples (ipc : Word) (c : FaultCode) (w : Option Word) (d : Option DataInfo) : (s.raiseAt ipc c w d).samples = s.samples := rfl

@[simp] theorem State.raise_v (c : FaultCode) (ins : Instr) (d : Option DataInfo) : (s.raise c ins d).v = s.v := rfl
@[simp] theorem State.raise_i (c : FaultCode) (ins : Instr) (d : Option DataInfo) : (s.raise c ins d).i = s.i := rfl
@[simp] theorem State.raise_pc (c : FaultCode) (ins : Instr) (d : Option DataInfo) : (s.raise c ins d).pc = s.pc - 2 := rfl
@[simp] theorem State.raise_stack (c : FaultCode) (ins : Instr) (d : Option DataInfo) : (s.raise c ins d).stack = s.stack := rfl
@[simp] theorem State.raise_mem (c : FaultCode) (ins : Instr) (d : Option DataInfo) : (s.raise c ins d).mem = s.mem := rfl
@[simp] theorem State.raise_dt (c : FaultCode) (ins : Instr) (d : Option DataInfo) : (s.raise c ins d).dt = s.dt := rfl
@[simp] theorem State.raise_st (c : FaultCode) (ins : Instr) (d : Option DataInfo) : (s.raise c ins d).st = s.st := rfl
@[simp] theorem State.raise_fb (c : FaultCode) (ins : Instr) (d : Option DataInfo) : (s.raise c ins d).fb = s.fb := rfl
@[simp] theorem State.raise_fault (c : FaultCode) (ins : Instr) (d : Option DataInfo) : (s.raise c ins d).fault = some ⟨c, s.pc - 2, some (encode ins), d⟩ := rfl
@[simp] theorem State.raise_cfg (c : FaultCode) (ins : Instr) (d : Option DataInfo) : (s.raise c ins d).cfg = s.cfg := rfl
@[simp] theorem State.raise_samples (c : FaultCode) (ins : Instr) (d : Option DataInfo) : (s.raise c ins d).samples = s.samples := rfl

@[simp] theorem State.raiseData_v (ins : Instr) (n : Nat) : (s.raiseData ins n).v = s.v := rfl
@[simp] theorem State.raiseData_i (ins : Instr) (n : Nat) : (s.raiseData ins n).i = s.i := rfl
@[simp] theorem State.raiseData_pc (ins : Instr) (n : Nat) : (s.raiseData ins n).pc = s.pc - 2 := rfl
@[simp] theorem State.raiseData_stack (ins : Instr) (n : Nat) : (s.raiseData ins n).stack = s.stack := rfl
@[simp] theorem State.raiseData_mem (ins : Instr) (n : Nat) : (s.raiseData ins n).mem = s.mem := rfl
@[simp] theorem State.raiseData_dt (ins : Instr) (n : Nat) : (s.raiseData ins n).dt = s.dt := rfl
@[simp] theorem State.raiseData_st (ins : Instr) (n : Nat) : (s.raiseData ins n).st = s.st := rfl
@[simp] theorem State.raiseData_fb (ins : Instr) (n : Nat) : (s.raiseData ins n).fb = s.fb := rfl
@[simp] theorem State.raiseData_fault (ins : Instr) (n : Nat) : (s.raiseData ins n).fault = some ⟨.dataOutOfRange, s.pc - 2, some (encode ins), some ⟨s.i, n⟩⟩ := rfl
@[simp] theorem State.raiseData_cfg (ins : Instr) (n : Nat) : (s.raiseData ins n).cfg = s.cfg := rfl
@[simp] theorem State.raiseData_samples (ins : Instr) (n : Nat) : (s.raiseData ins n).samples = s.samples := rfl

@[simp] theorem State.skipIf_v (c : Bool) : (s.skipIf c).v = s.v := rfl
@[simp] theorem State.skipIf_i (c : Bool) : (s.skipIf c).i = s.i := rfl
@[simp] theorem State.skipIf_pc (c : Bool) : (s.skipIf c).pc = if c then s.pc + 2 else s.pc := rfl
@[simp] theorem State.skipIf_stack (c : Bool) : (s.skipIf c).stack = s.stack := rfl
@[simp] theorem State.skipIf_mem (c : Bool) : (s.skipIf c).mem = s.mem := rfl
@[simp] theorem State.skipIf_dt (c : Bool) : (s.skipIf c).dt = s.dt := rfl
@[simp] theorem State.skipIf_st (c : Bool) : (s.skipIf c).st = s.st := rfl
@[simp] theorem State.skipIf_fb (c : Bool) : (s.skipIf c).fb = s.fb := rfl
@[simp] theorem State.skipIf_fault (c : Bool) : (s.skipIf c).fault = s.fault := rfl
@[simp] theorem State.skipIf_cfg (c : Bool) : (s.skipIf c).cfg = s.cfg := rfl
@[simp] theorem State.skipIf_samples (c : Bool) : (s.skipIf c).samples = s.samples := rfl

@[simp] theorem State.writeIndexFlag_v (f : Bool) : (s.writeIndexFlag f).v = if s.cfg.addIVf then s.v.set 15 (flagByte f) else s.v := rfl
@[simp] theorem State.writeIndexFlag_i (f : Bool) : (s.writeIndexFlag f).i = s.i := rfl
@[simp] theorem State.writeIndexFlag_pc (f : Bool) : (s.writeIndexFlag f).pc = s.pc := rfl
@[simp] theorem State.writeIndexFlag_stack (f : Bool) : (s.writeIndexFlag f).stack = s.stack := rfl
@[simp] theorem State.writeIndexFlag_mem (f : Bool) : (s.writeIndexFlag f).mem = s.mem := rfl
@[simp] theorem State.writeIndexFlag_dt (f : Bool) : (s.writeIndexFlag f).dt = s.dt := rfl
@[simp] theorem State.writeIndexFlag_st (f : Bool) : (s.writeIndexFlag f).st = s.st := rfl
@[simp] theorem State.writeIndexFlag_fb (f : Bool) : (s.writeIndexFlag f).fb = s.fb := rfl
@[simp] theorem State.writeIndexFlag_fault (f : Bool) : (s.writeIndexFlag f).fault = s.fault := rfl
@[simp] theorem State.writeIndexFlag_cfg (f : Bool) : (s.writeIndexFlag f).cfg = s.cfg := rfl
@[simp] theorem State.writeIndexFlag_samples (f : Bool) : (s.writeIndexFlag f).samples = s.samples := rfl

/-! Updates that change the register file alone. -/

theorem State.writeWithFlag_frame (x : Nibble) (r : Byte) (f : Bool) :
    s.writeWithFlag x r f = { s with v := (s.writeWithFlag x r f).v } := by
  unfold State.writeWithFlag; split <;> rfl

theorem State.writeRegs_frame (x : Nibble) (bs : List Byte) :
    s.writeRegs x bs = { s with v := (s.writeRegs x bs).v } := by
  induction bs generalizing s x with
  | nil => rfl
  | cons b bs ih => rw [State.writeRegs, ih]; rfl

@[simp] theorem State.writeWithFlag_i (x : Nibble) (r : Byte) (f : Bool) : (s.writeWithFlag x r f).i = s.i := by
  rw [State.writeWithFlag_frame]
@[simp] theorem State.writeWithFlag_pc (x : Nibble) (r : Byte) (f : Bool) : (s.writeWithFlag x r f).pc = s.pc := by
  rw [State.writeWithFlag_frame]
@[simp] theorem State.writeWithFlag_stack (x : Nibble) (r : Byte) (f : Bool) : (s.writeWithFlag x r f).stack = s.stack := by
  rw [State.writeWithFlag_frame]
@[simp] theorem State.writeWithFlag_mem (x : Nibble) (r : Byte) (f : Bool) : (s.writeWithFlag x r f).mem = s.mem := by
  rw [State.writeWithFlag_frame]
@[simp] theorem State.writeWithFlag_dt (x : Nibble) (r : Byte) (f : Bool) : (s.writeWithFlag x r f).dt = s.dt := by
  rw [State.writeWithFlag_frame]
@[simp] theorem State.writeWithFlag_st (x : Nibble) (r : Byte) (f : Bool) : (s.writeWithFlag x r f).st = s.st := by
  rw [State.writeWithFlag_frame]
@[simp] theorem State.writeWithFlag_fb (x : Nibble) (r : Byte) (f : Bool) : (s.writeWithFlag x r f).fb = s.fb := by
  rw [State.writeWithFlag_frame]
@[simp] theorem State.writeWithFlag_fault (x : Nibble) (r : Byte) (f : Bool) : (s.writeWithFlag x r f).fault = s.fault := by
  rw [State.writeWithFlag_frame]
@[simp] theorem State.writeWithFlag_cfg (x : Nibble) (r : Byte) (f : Bool) : (s.writeWithFlag x r f).cfg = s.cfg := by
  rw [State.writeWithFlag_frame]
@[simp] theorem State.writeWithFlag_samples (x : Nibble) (r : Byte) (f : Bool) : (s.writeWithFlag x r f).samples = s.samples := by
  rw [State.writeWithFlag_frame]

@[simp] theorem State.writeRegs_i (x : Nibble) (bs : List Byte) : (s.writeRegs x bs).i = s.i := by
  rw [State.writeRegs_frame]
@[simp] theorem State.writeRegs_pc (x : Nibble) (bs : List Byte) : (s.writeRegs x bs).pc = s.pc := by
  rw [State.writeRegs_frame]
@[simp] theorem State.writeRegs_stack (x : Nibble) (bs : List Byte) : (s.writeRegs x bs).stack = s.stack := by
  rw [State.writeRegs_frame]
@[simp] theorem State.writeRegs_mem (x : Nibble) (bs : List Byte) : (s.writeRegs x bs).mem = s.mem := by
  rw [State.writeRegs_frame]
@[simp] theorem State.writeRegs_dt (x : Nibble) (bs : List Byte) : (s.writeRegs x bs).dt = s.dt := by
  rw [State.writeRegs_frame]
@[simp] theorem State.writeRegs_st (x : Nibble) (bs : List Byte) : (s.writeRegs x bs).st = s.st := by
  rw [State.writeRegs_frame]
@[simp] theorem State.writeRegs_fb (x : Nibble) (bs : List Byte) : (s.writeRegs x bs).fb = s.fb := by
  rw [State.writeRegs_frame]
@[simp] theorem State.writeRegs_fault (x : Nibble) (bs : List Byte) : (s.writeRegs x bs).fault = s.fault := by
  rw [State.writeRegs_frame]
@[simp] theorem State.writeRegs_cfg (x : Nibble) (bs : List Byte) : (s.writeRegs x bs).cfg = s.cfg := by
  rw [State.writeRegs_frame]
@[simp] theorem State.writeRegs_samples (x : Nibble) (bs : List Byte) : (s.writeRegs x bs).samples = s.samples := by
  rw [State.writeRegs_frame]

/-! The canonical form of memory, which every update that stores nothing leaves as it is. -/

/-- The canonical form depends on memory and the configured font alone. -/
theorem State.memWf_congr {t : State} (hm : t.mem = s.mem) (hc : t.cfg = s.cfg) : t.memWf = s.memWf := by
  simp [State.memWf, hm, hc]

/-- A byte read depends on memory and the configured font alone. -/
theorem State.memRead_congr {t : State} (hm : t.mem = s.mem) (hc : t.cfg = s.cfg) (a : Addr) :
    t.memRead a = s.memRead a := by simp [State.memRead, State.byteAt, hm, hc]

@[simp] theorem State.writeV_memWf (x : Nibble) (b : Byte) : (s.writeV x b).memWf = s.memWf := rfl
@[simp] theorem State.push_memWf (a : Word) : (s.push a).memWf = s.memWf := rfl
@[simp] theorem State.dropTop_memWf : (s.dropTop).memWf = s.memWf := rfl
@[simp] theorem State.setPc_memWf (a : Word) : (s.setPc a).memWf = s.memWf := rfl
@[simp] theorem State.setI_memWf (a : Addr) : (s.setI a).memWf = s.memWf := rfl
@[simp] theorem State.advance_memWf : (s.advance).memWf = s.memWf := rfl
@[simp] theorem State.sampled_memWf : (s.sampled).memWf = s.memWf := rfl
@[simp] theorem State.timerTick_memWf : (s.timerTick).memWf = s.memWf := rfl
@[simp] theorem State.raiseAt_memWf (ipc : Word) (c : FaultCode) (w : Option Word) (d : Option DataInfo) :
    (s.raiseAt ipc c w d).memWf = s.memWf := rfl
@[simp] theorem State.raise_memWf (c : FaultCode) (ins : Instr) (d : Option DataInfo) :
    (s.raise c ins d).memWf = s.memWf := rfl
@[simp] theorem State.raiseData_memWf (ins : Instr) (n : Nat) : (s.raiseData ins n).memWf = s.memWf := rfl
@[simp] theorem State.skipIf_memWf (c : Bool) : (s.skipIf c).memWf = s.memWf := rfl
@[simp] theorem State.writeIndexFlag_memWf (f : Bool) : (s.writeIndexFlag f).memWf = s.memWf := rfl
@[simp] theorem State.writeWithFlag_memWf (x : Nibble) (r : Byte) (f : Bool) : (s.writeWithFlag x r f).memWf = s.memWf :=
  s.memWf_congr (by simp) (by simp)
@[simp] theorem State.writeRegs_memWf (x : Nibble) (bs : List Byte) : (s.writeRegs x bs).memWf = s.memWf :=
  s.memWf_congr (by simp) (by simp)

/-! Resetting. -/

@[simp] theorem State.hostReset_cfg : s.hostReset.cfg = s.cfg := rfl
@[simp] theorem State.hostReset_samples : s.hostReset.samples = s.samples := rfl
@[simp] theorem State.hostReset_fault : s.hostReset.fault = none := rfl
@[simp] theorem State.hostReset_mem : s.hostReset.mem = [] := rfl
@[simp] theorem State.hostReset_memWf : s.hostReset.memWf = true := rfl
@[simp] theorem State.hostReset_pc : s.hostReset.pc = 0x200#16 := rfl
@[simp] theorem State.hostReset_stack : s.hostReset.stack = [] := rfl

end Sys2Proof.Machine
end

