-- ==== Sys2Proof/Laws/Display.lean ====
section
/-! SUPPORT. Reading pixels after writing them, and what one sprite bit does (rules R32, R191). -/

namespace Sys2Proof.Machine

theorem getPixel_setPixel (fb : Framebuffer) (r c r' c' : Nat) (p : Bool) :
    getPixel (setPixel fb r c p) r' c' =
      if r' = r ∧ c' = c ∧ r < 32 ∧ c < 64 then p else getPixel fb r' c' := by
  unfold setPixel
  by_cases h : r < 32 ∧ c < 64
  · rw [dif_pos h]
    unfold getPixel
    by_cases h' : r' < 32 ∧ c' < 64
    · rw [dif_pos h', dif_pos h']
      by_cases hr : r' = r
      · subst hr
        by_cases hc : c' = c
        · subst hc; simp [h]
        · have : c ≠ c' := fun e => hc e.symm
          simp [hc, this]
      · have : r ≠ r' := fun e => hr e.symm
        simp [hr, this]
    · rw [dif_neg h', dif_neg h', if_neg]
      rintro ⟨rfl, rfl, h1, h2⟩
      exact h' ⟨h1, h2⟩
  · rw [dif_neg h, if_neg]
    rintro ⟨-, -, h1, h2⟩
    exact h ⟨h1, h2⟩

theorem getPixel_outside (fb : Framebuffer) {r c : Nat} (h : ¬(r < 32 ∧ c < 64)) : getPixel fb r c = false := by
  simp [getPixel, h]

@[simp] theorem getPixel_clear (r c : Nat) :
    getPixel (Vector.replicate 32 (Vector.replicate 64 false)) r c = false := by
  unfold getPixel; split <;> simp

/-- Framebuffers with equal pixels are equal. -/
theorem framebuffer_ext {fb fb' : Framebuffer} (h : ∀ r c, getPixel fb r c = getPixel fb' r c) : fb = fb' := by
  apply Vector.ext
  intro r hr
  apply Vector.ext
  intro c hc
  have := h r c
  simpa [getPixel, hr, hc] using this

/-- Everything one sprite bit does to the pixels: it inverts its own pixel if it is lit and inside the grid. -/
theorem getPixel_drawBit (row col : Nat) (lit : Bool) (d : Framebuffer × Bool) (r c : Nat) :
    getPixel (drawBit row col lit d).1 r c =
      ((getPixel d.1 r c) ^^ (lit && decide (r = row ∧ c = col ∧ row ≤ 31 ∧ col ≤ 63))) := by
  unfold drawBit
  by_cases h : row ≤ 31 ∧ col ≤ 63 ∧ lit = true
  · obtain ⟨h1, h2, rfl⟩ := h
    rw [if_pos ⟨h1, h2, rfl⟩, getPixel_setPixel]
    by_cases hp : r = row ∧ c = col
    · obtain ⟨rfl, rfl⟩ := hp
      rw [if_pos ⟨rfl, rfl, by omega, by omega⟩]
      simp [h1, h2]
    · rw [if_neg (fun e => hp ⟨e.1, e.2.1⟩), decide_eq_false (fun e => hp ⟨e.1, e.2.1⟩)]
      simp
  · rw [if_neg h]
    cases lit with
    | false => simp
    | true =>
      rw [decide_eq_false (fun e => h ⟨e.2.2.1, e.2.2.2, rfl⟩)]
      simp

/-- Everything one sprite bit does to the collision flag. -/
theorem collided_drawBit (row col : Nat) (lit : Bool) (d : Framebuffer × Bool) :
    (drawBit row col lit d).2 = (d.2 || (lit && getPixel d.1 row col)) := by
  unfold drawBit
  by_cases h : row ≤ 31 ∧ col ≤ 63 ∧ lit = true
  · rw [if_pos h]; simp [h.2.2]
  · rw [if_neg h]
    cases lit with
    | false => simp
    | true =>
      rw [getPixel_outside d.1 (by intro e; exact h ⟨by omega, by omega, rfl⟩)]
      simp

/-- What one sprite byte lights: the bit of column `c` counted from the byte's left edge at `x0`. -/
def byteLit (row x0 : Nat) (b : Byte) (r c : Nat) : Bool :=
  decide (r = row ∧ x0 ≤ c ∧ c < x0 + 8) && b.getLsbD (7 - (c - x0))

/-- Everything a tail of one sprite byte's columns does to the pixels of the grid. -/
theorem getPixel_drawBits (row x0 : Nat) (b : Byte) (k count : Nat) (hk : k + count = 8) (d : Framebuffer × Bool)
    {r c : Nat} (hr : r < 32) (hc : c < 64) :
    getPixel (drawBits row x0 b k count d).1 r c =
      ((getPixel d.1 r c) ^^ (byteLit row x0 b r c && decide (x0 + k ≤ c))) := by
  induction count generalizing k d with
  | zero =>
    have : (byteLit row x0 b r c && decide (x0 + k ≤ c)) = false := by
      simp only [byteLit, Bool.and_eq_false_iff, decide_eq_false_iff_not]; omega
    simp [drawBits, this]
  | succ count ih =>
    rw [drawBits, ih (k + 1) (by omega), getPixel_drawBit]
    by_cases hcol : r = row ∧ c = x0 + k
    · obtain ⟨rfl, rfl⟩ := hcol
      have h1 : k < 8 := by omega
      have h2 : r ≤ 31 := by omega
      have h3 : x0 + k ≤ 63 := by omega
      simp [byteLit, h1, h2, h3]
    · rw [decide_eq_false (p := r = row ∧ c = x0 + k ∧ row ≤ 31 ∧ x0 + k ≤ 63) (fun e => hcol ⟨e.1, e.2.1⟩)]
      by_cases hrow : r = row
      · have : decide (x0 + (k + 1) ≤ c) = decide (x0 + k ≤ c) := by
          apply decide_eq_decide.2; omega
        simp [this]
      · simp [byteLit, hrow]

/-- Everything a tail of one sprite byte's columns does to the collision flag. -/
theorem collided_drawBits (row x0 : Nat) (b : Byte) (k count : Nat) (hk : k + count = 8) (d : Framebuffer × Bool) :
    (drawBits row x0 b k count d).2 = true ↔
      d.2 = true ∨ ∃ r c, r < 32 ∧ c < 64 ∧ byteLit row x0 b r c = true ∧ x0 + k ≤ c ∧ getPixel d.1 r c = true := by
  induction count generalizing k d with
  | zero =>
    rw [drawBits]
    refine ⟨Or.inl, ?_⟩
    rintro (h | ⟨r, c, -, -, hl, hle, -⟩)
    · exact h
    · simp only [byteLit, Bool.and_eq_true, decide_eq_true_eq] at hl; omega
  | succ count ih =>
    rw [drawBits, ih (k + 1) (by omega), collided_drawBit]
    simp only [Bool.or_eq_true, Bool.and_eq_true]
    constructor
    · rintro ((h | ⟨hl, hp⟩) | ⟨r, c, hr, hc, hl, hle, hp⟩)
      · exact .inl h
      · by_cases hin : row < 32 ∧ x0 + k < 64
        · refine .inr ⟨row, x0 + k, hin.1, hin.2, ?_, le_refl _, hp⟩
          have : k < 8 := by omega
          simp [byteLit, this, hl]
        · rw [getPixel_outside d.1 hin] at hp; exact absurd hp (by decide)
      · refine .inr ⟨r, c, hr, hc, hl, by omega, ?_⟩
        rw [getPixel_drawBit, decide_eq_false (fun e => by omega)] at hp
        simpa using hp
    · rintro (h | ⟨r, c, hr, hc, hl, hle, hp⟩)
      · exact .inl (.inl h)
      · have hrow : r = row := by
          simp only [byteLit, Bool.and_eq_true, decide_eq_true_eq] at hl; exact hl.1.1
        subst hrow
        by_cases hcol : c = x0 + k
        · subst hcol
          refine .inl (.inr ⟨?_, hp⟩)
          simp only [byteLit, Bool.and_eq_true] at hl
          simpa using hl.2
        · refine .inr ⟨r, c, hr, hc, hl, by omega, ?_⟩
          rw [getPixel_drawBit, decide_eq_false (fun e => hcol e.2.1)]
          simpa using hp

/-- What a sprite's bytes light, the first of them in row `row`. -/
def rowsLit (x0 row : Nat) (bs : List Byte) (r c : Nat) : Bool :=
  decide (row ≤ r ∧ r < row + bs.length) && byteLit r x0 (bs.getD (r - row) 0) r c

@[simp] theorem rowsLit_nil (x0 row r c : Nat) : rowsLit x0 row [] r c = false := by
  unfold rowsLit
  rw [decide_eq_false (by rw [List.length_nil]; omega), Bool.false_and]

theorem rowsLit_cons (x0 row : Nat) (b : Byte) (bs : List Byte) (r c : Nat) :
    rowsLit x0 row (b :: bs) r c = (byteLit row x0 b r c || rowsLit x0 (row + 1) bs r c) := by
  by_cases h : r = row
  · subst h
    simp [rowsLit]
  · have hb : byteLit row x0 b r c = false := by simp [byteLit, h]
    rw [hb, Bool.false_or]
    unfold rowsLit
    by_cases h' : row + 1 ≤ r ∧ r < row + 1 + bs.length
    · have h1 : row ≤ r ∧ r < row + (b :: bs).length := by rw [List.length_cons]; omega
      have h2 : r - row = (r - (row + 1)) + 1 := by omega
      rw [decide_eq_true h', decide_eq_true h1, h2, List.getD_cons_succ]
    · rw [decide_eq_false h', decide_eq_false (by rw [List.length_cons]; omega)]
      rfl

/-- A byte's row and the rows below it never light the same position. -/
theorem byteLit_and_rowsLit (x0 row : Nat) (b : Byte) (bs : List Byte) (r c : Nat) :
    (byteLit row x0 b r c && rowsLit x0 (row + 1) bs r c) = false := by
  by_cases h : r = row
  · subst h; simp [rowsLit]
  · simp [byteLit, h]

/-- Everything drawing sprite rows does to the pixels of the grid (rule R191): it inverts the lit ones. -/
theorem getPixel_drawRows (x0 row : Nat) (bs : List Byte) (d : Framebuffer × Bool) {r c : Nat} (hr : r < 32)
    (hc : c < 64) : getPixel (drawRows x0 row bs d).1 r c = ((getPixel d.1 r c) ^^ rowsLit x0 row bs r c) := by
  induction bs generalizing row d with
  | nil => simp [drawRows]
  | cons b bs ih =>
    rw [drawRows, ih, getPixel_drawBits row x0 b 0 8 rfl d hr hc, rowsLit_cons]
    have hx := byteLit_and_rowsLit x0 row b bs r c
    have : (byteLit row x0 b r c && decide (x0 + 0 ≤ c)) = byteLit row x0 b r c := by
      by_cases h : x0 ≤ c
      · simp [h]
      · simp [byteLit, h]
    rw [this]
    revert hx
    cases byteLit row x0 b r c <;> cases rowsLit x0 (row + 1) bs r c <;> simp

/-- Everything drawing sprite rows does to the collision flag (rule R191): it is set by any lit position of the grid whose
pixel was set before the draw. -/
theorem collided_drawRows (x0 row : Nat) (bs : List Byte) (d : Framebuffer × Bool) :
    (drawRows x0 row bs d).2 = true ↔
      d.2 = true ∨ ∃ r c, r < 32 ∧ c < 64 ∧ rowsLit x0 row bs r c = true ∧ getPixel d.1 r c = true := by
  induction bs generalizing row d with
  | nil => simp [drawRows]
  | cons b bs ih =>
    rw [drawRows, ih, collided_drawBits row x0 b 0 8 rfl]
    constructor
    · rintro ((h | ⟨r, c, hr, hc, hl, -, hp⟩) | ⟨r, c, hr, hc, hl, hp⟩)
      · exact .inl h
      · exact .inr ⟨r, c, hr, hc, by rw [rowsLit_cons, hl, Bool.true_or], hp⟩
      · have hb := byteLit_and_rowsLit x0 row b bs r c
        rw [hl, Bool.and_true] at hb
        rw [getPixel_drawBits row x0 b 0 8 rfl d hr hc, hb] at hp
        exact .inr ⟨r, c, hr, hc, by rw [rowsLit_cons, hl, Bool.or_true], by simpa using hp⟩
    · rintro (h | ⟨r, c, hr, hc, hl, hp⟩)
      · exact .inl (.inl h)
      · rw [rowsLit_cons, Bool.or_eq_true] at hl
        rcases hl with hl | hl
        · have hle : x0 + 0 ≤ c := by
            simp only [byteLit, Bool.and_eq_true, decide_eq_true_eq] at hl; omega
          exact .inl (.inr ⟨r, c, hr, hc, hl, hle, hp⟩)
        · have hb := byteLit_and_rowsLit x0 row b bs r c
          rw [hl, Bool.and_true] at hb
          exact .inr ⟨r, c, hr, hc, hl, by
            rw [getPixel_drawBits row x0 b 0 8 rfl d hr hc, hb]; simpa using hp⟩

end Sys2Proof.Machine
end

