-- ==== Sys2Proof/Laws/Memory.lean ====
section
/-! SUPPORT. The laws of memory (rules R52, R61): a read after a write, and that every memory operation keeps the
canonical form. -/

namespace Sys2Proof.Machine

variable {f : Font}

theorem Memory.wfFrom_mono {m : Memory} {lo lo' : Nat} (hle : lo' ≤ lo) (h : Memory.wfFrom f lo m = true) :
    Memory.wfFrom f lo' m = true := by
  cases m with
  | nil => rfl
  | cons c m => simp only [Memory.wfFrom, Bool.and_eq_true, decide_eq_true_eq] at h ⊢; exact ⟨⟨⟨by omega, h.1.1.2⟩, h.1.2⟩, h.2⟩

theorem Memory.wfFrom_cons {lo k : Nat} {b : Byte} {m : Memory} :
    Memory.wfFrom f lo ((k, b) :: m) = true ↔
      lo ≤ k ∧ k < memSize ∧ b ≠ resetByte f k ∧ Memory.wfFrom f (k + 1) m = true := by
  simp [Memory.wfFrom, and_assoc]

/-- Below its bound a canonical memory lists nothing. -/
theorem Memory.read_of_lt {m : Memory} {lo a : Nat} (h : Memory.wfFrom f lo m = true) (ha : a < lo) :
    Memory.read f m a = resetByte f a := by
  induction m generalizing lo with
  | nil => rfl
  | cons c m ih =>
    obtain ⟨h1, -, -, h4⟩ := Memory.wfFrom_cons.1 h
    rw [Memory.read, if_neg (by omega), ih h4 (by omega)]

theorem read_consCell {a b : Nat} {v : Byte} {m : Memory} (hm : Memory.wfFrom f (a + 1) m = true) :
    Memory.read f (consCell f a v m) b = if b = a then v else Memory.read f m b := by
  unfold consCell
  split
  · by_cases hb : b = a
    · subst hb; rw [if_pos rfl, Memory.read_of_lt hm (by omega)]; simp_all
    · rw [if_neg hb]
  · rfl

theorem wfFrom_consCell {lo a : Nat} {v : Byte} {m : Memory} (hlo : lo ≤ a) (ha : a < memSize)
    (hm : Memory.wfFrom f (a + 1) m = true) : Memory.wfFrom f lo (consCell f a v m) = true := by
  unfold consCell
  split
  · exact Memory.wfFrom_mono (by omega) hm
  · exact Memory.wfFrom_cons.2 ⟨hlo, ha, by assumption, hm⟩

/-- A read after a write (rules R52, R61), in a canonical memory. -/
theorem Memory.read_write_from {m : Memory} {lo : Nat} (hm : Memory.wfFrom f lo m = true) {a : Nat} (b : Nat) (v : Byte) :
    Memory.read f (Memory.write f m a v) b = if b = a then v else Memory.read f m b := by
  induction m generalizing lo with
  | nil => exact read_consCell rfl
  | cons c m ih =>
    obtain ⟨k, w⟩ := c
    obtain ⟨h1, h2, h3, h4⟩ := Memory.wfFrom_cons.1 hm
    unfold Memory.write
    split
    · rename_i hlt
      exact read_consCell (Memory.wfFrom_cons.2 ⟨by omega, h2, h3, h4⟩)
    · split
      · rename_i heq
        subst heq
        rw [read_consCell h4]
        by_cases hb : b = a
        · simp [hb]
        · simp [hb, Memory.read]
      · rw [Memory.read, ih h4, Memory.read]
        by_cases hbk : b = k
        · have : b ≠ a := by omega
          simp [hbk]; omega
        · simp [hbk]

theorem Memory.wfFrom_write {m : Memory} {lo : Nat} (hm : Memory.wfFrom f lo m = true) {a : Nat} (hlo : lo ≤ a)
    (ha : a < memSize) (v : Byte) : Memory.wfFrom f lo (Memory.write f m a v) = true := by
  induction m generalizing lo with
  | nil => exact wfFrom_consCell hlo ha rfl
  | cons c m ih =>
    obtain ⟨k, w⟩ := c
    obtain ⟨h1, h2, h3, h4⟩ := Memory.wfFrom_cons.1 hm
    unfold Memory.write
    split
    · exact wfFrom_consCell hlo ha (Memory.wfFrom_cons.2 ⟨by omega, h2, h3, h4⟩)
    · split
      · rename_i heq
        subst heq
        exact wfFrom_consCell hlo ha h4
      · exact Memory.wfFrom_cons.2 ⟨h1, h2, h3, ih h4 (by omega)⟩

theorem Memory.read_write {m : Memory} (hm : Memory.wf f m = true) (a b : Nat) (v : Byte) :
    Memory.read f (Memory.write f m a v) b = if b = a then v else Memory.read f m b :=
  Memory.read_write_from hm b v

/-- A write inside memory keeps the canonical form. -/
theorem Memory.wf_write {m : Memory} (hm : Memory.wf f m = true) {a : Nat} (ha : a < memSize) (v : Byte) :
    Memory.wf f (Memory.write f m a v) = true :=
  Memory.wfFrom_write hm (Nat.zero_le a) ha v

theorem addr_lt_memSize (a : Addr) : a.toNat < memSize := a.isLt

/-- A run of writes keeps the canonical form, wherever it starts and however long it is. -/
theorem Memory.wf_writeRun {m : Memory} (hm : Memory.wf f m = true) (a : Addr) (bs : List Byte) :
    Memory.wf f (Memory.writeRun f m a bs) = true := by
  induction bs generalizing m a with
  | nil => exact hm
  | cons b bs ih => exact ih (Memory.wf_write hm (addr_lt_memSize a) b) (a + 1)

/-- The distance from `a` up to `b`, around the end of memory. -/
def addrOffset (a b : Addr) : Nat := (b - a).toNat

theorem addrOffset_succ {a b : Addr} (h : b ≠ a) : addrOffset a b = addrOffset (a + 1) b + 1 := by
  unfold addrOffset; bv_omega

theorem addrOffset_self (a : Addr) : addrOffset a a = 0 := by simp [addrOffset]

/-- Reading after a run of writes no longer than memory: the byte of the run at its offset, else the byte before. -/
theorem Memory.read_writeRun {m : Memory} (hm : Memory.wf f m = true) (a b : Addr) (bs : List Byte)
    (hlen : bs.length ≤ 4096) :
    Memory.read f (Memory.writeRun f m a bs) b.toNat =
      if addrOffset a b < bs.length then bs.getD (addrOffset a b) 0 else Memory.read f m b.toNat := by
  induction bs generalizing m a with
  | nil => simp [Memory.writeRun]
  | cons c bs ih =>
    rw [List.length_cons] at hlen ⊢
    rw [Memory.writeRun, ih (Memory.wf_write hm (addr_lt_memSize a) c) (a + 1) (by omega),
      Memory.read_write hm a.toNat b.toNat c]
    by_cases hb : b = a
    · subst hb
      have : addrOffset (b + 1) b = 4095 := by unfold addrOffset; bv_omega
      rw [this, addrOffset_self, if_neg (by omega), if_pos rfl, if_pos (by omega)]
      simp
    · have hne : b.toNat ≠ a.toNat := fun e => hb (BitVec.eq_of_toNat_eq e)
      rw [addrOffset_succ hb, if_neg hne]
      simp only [Nat.add_lt_add_iff_right, List.getD_cons_succ]

@[simp] theorem Memory.length_readRun (m : Memory) (a : Addr) (n : Nat) : (Memory.readRun f m a n).length = n := by
  induction n generalizing a with
  | zero => rfl
  | succ n ih => simp [Memory.readRun, ih]

/-- The k-th byte of a run read. -/
theorem Memory.getD_readRun (m : Memory) (a : Addr) {n k : Nat} (hk : k < n) :
    (Memory.readRun f m a n).getD k 0 = Memory.read f m (a + BitVec.ofNat 12 k).toNat := by
  induction n generalizing a k with
  | zero => omega
  | succ n ih =>
    cases k with
    | zero => simp [Memory.readRun]
    | succ k =>
      rw [Memory.readRun, List.getD_cons_succ, ih _ (by omega)]
      congr 2
      bv_omega

/-- The memory of reset is canonical. -/
theorem Memory.wf_nil : Memory.wf f [] = true := rfl

/-- A stored run keeps the canonical form, and so does every operation that stores. -/
theorem State.store_memWf {s : State} (h : s.memWf = true) (a : Addr) (bs : List Byte) :
    (s.store a bs).memWf = true := Memory.wf_writeRun h a bs

theorem State.writeData_memWf {s : State} (h : s.memWf = true) (bs : List Byte) : (s.writeData bs).memWf = true :=
  s.store_memWf h _ bs

theorem State.memWrite_memWf {s : State} (h : s.memWf = true) (a : Addr) (b : Byte) : (s.memWrite a b).memWf = true :=
  Memory.wf_write h (addr_lt_memSize a) b

theorem State.load_memWf {s : State} (h : s.memWf = true) (image : List Byte) :
    (s.load image).state.memWf = true := by
  unfold State.load; split
  · exact s.store_memWf h _ image
  · exact h

theorem State.placeWord_memWf {s : State} (h : s.memWf = true) (nbits w : Nat) : (s.placeWord nbits w).memWf = true :=
  s.store_memWf h _ _

/-- Everything a stored run does to memory: its bytes at their offsets, every other byte as before. -/
theorem State.memRead_store {s : State} (h : s.memWf = true) (a b : Addr) {bs : List Byte} (hlen : bs.length ≤ 4096) :
    (s.store a bs).memRead b = if addrOffset a b < bs.length then bs.getD (addrOffset a b) 0 else s.memRead b :=
  Memory.read_writeRun h a b bs hlen

end Sys2Proof.Machine
end

