-- ==== Sys2Proof/Laws/Registers.lean ====
section
/-! SUPPORT. Reading registers after writing them: the register file (rule R20), a result with a flag (rule R124) and a
block load (rule R156). -/

namespace Sys2Proof.Machine

variable (s : State)

theorem State.readV_writeV (x y : Nibble) (b : Byte) :
    (s.writeV x b).readV y = if y = x then b else s.readV y := by
  simp only [State.readV, State.writeV, Vector.getElem_set]
  by_cases h : y = x
  · simp [h]
  · have : x.toNat ≠ y.toNat := fun e => h (BitVec.eq_of_toNat_eq e.symm)
    simp [h, this]

@[simp] theorem State.readV_writeV_self (x : Nibble) (b : Byte) : (s.writeV x b).readV x = b := by
  simp [State.readV_writeV]

theorem State.readV_writeV_of_ne {x y : Nibble} (h : y ≠ x) (b : Byte) : (s.writeV x b).readV y = s.readV y := by
  simp [State.readV_writeV, h]

/-- A read depends on the register file alone. -/
theorem State.readV_congr {s t : State} (h : t.v = s.v) (x : Nibble) : t.readV x = s.readV x := by
  simp [State.readV, h]

/-- Everything `writeWithFlag` does to the registers. -/
theorem State.readV_writeWithFlag (x y : Nibble) (r : Byte) (f : Bool) :
    (s.writeWithFlag x r f).readV y =
      match s.cfg.vfOrder with
      | .flagThenResult => if y = x then r else if y = vf then flagByte f else s.readV y
      | .resultThenFlag => if y = vf then flagByte f else if y = x then r else s.readV y := by
  unfold State.writeWithFlag
  cases s.cfg.vfOrder <;> simp [State.readV_writeV]

/-- Everything the index-add flag does to the registers (rule R151). -/
theorem State.readV_writeIndexFlag (y : Nibble) (f : Bool) :
    (s.writeIndexFlag f).readV y = if s.cfg.addIVf = true ∧ y = vf then flagByte f else s.readV y := by
  unfold State.writeIndexFlag
  by_cases h : s.cfg.addIVf = true
  · rw [if_pos h]
    simp only [h, true_and]
    exact State.readV_writeV s vf y (flagByte f)
  · rw [if_neg h, if_neg (fun e => h e.1)]

/-- Register files with equal reads are equal. -/
theorem State.v_ext {s t : State} (h : ∀ x, t.readV x = s.readV x) : t.v = s.v := by
  apply Vector.ext
  intro k hk
  have := h (BitVec.ofNat 4 k)
  simpa [State.readV, Nat.mod_eq_of_lt hk] using this

/-- A block load writes the k-th byte to the k-th register from `x` on. -/
theorem State.readV_writeRegs (x y : Nibble) (bs : List Byte) (hfit : x.toNat + bs.length ≤ 16) :
    (s.writeRegs x bs).readV y =
      if x.toNat ≤ y.toNat ∧ y.toNat < x.toNat + bs.length then bs.getD (y.toNat - x.toNat) 0 else s.readV y := by
  induction bs generalizing s x with
  | nil =>
    simp only [State.writeRegs, List.length_nil]
    rw [if_neg (by omega)]
  | cons b bs ih =>
    rw [State.writeRegs]
    rw [List.length_cons] at hfit ⊢
    by_cases hlast : x.toNat = 15
    · have hbs : bs = [] := List.eq_nil_of_length_eq_zero (by omega)
      subst hbs
      rw [State.writeRegs, State.readV_writeV]
      by_cases hy : y = x
      · subst hy; simp
      · have : y.toNat ≠ x.toNat := fun e => hy (BitVec.eq_of_toNat_eq e)
        have := y.isLt
        rw [if_neg hy, if_neg (by simp only [List.length_nil]; omega)]
    · have hx : (x + 1).toNat = x.toNat + 1 := by bv_omega
      rw [ih _ _ (by omega), hx, State.readV_writeV]
      by_cases hy : y = x
      · subst hy
        rw [if_neg (by omega), if_pos rfl, if_pos (by omega)]
        simp
      · have hne : y.toNat ≠ x.toNat := fun e => hy (BitVec.eq_of_toNat_eq e)
        by_cases hin : x.toNat + 1 ≤ y.toNat ∧ y.toNat < x.toNat + 1 + bs.length
        · rw [if_pos hin, if_pos (by omega)]
          have : y.toNat - x.toNat = (y.toNat - (x.toNat + 1)) + 1 := by omega
          rw [this, List.getD_cons_succ]
        · rw [if_neg hin, if_neg hy, if_neg (by omega)]

end Sys2Proof.Machine
end

