-- ==== Sys2Proof/Laws/Ops.lean ====
section
/-! SUPPORT. One lemma per shared operation that says everything it does, in the terms of Safety.lean. -/

namespace Sys2Proof.Machine

variable (s : State)

/-- A plain register write (rule R20). -/
theorem State.writeV_onlyWritesV (x : Nibble) (b : Byte) : OnlyWritesV s (s.writeV x b) x b :=
  ⟨s.readV_writeV_self x b, fun _ h => s.readV_writeV_of_ne h b, rfl⟩

theorem flagByte_eq (f : Bool) : flagByte f = if f then 1#8 else 0#8 := rfl

/-- A result and a flag (rule R124). -/
theorem State.writeWithFlag_onlyWrites (x : Nibble) (r : Byte) (f : Bool) :
    OnlyWritesWithFlag s (s.writeWithFlag x r f) x r f where
  value h := by rw [State.readV_writeWithFlag]; split <;> simp_all [vf]
  flagged h := by rw [State.readV_writeWithFlag]; split <;> simp_all [vf, flagByte, eq_comm]
  both h := by subst h; rw [State.readV_writeWithFlag]; split <;> simp_all [vf, flagByte]
  others z h h' := by rw [State.readV_writeWithFlag]; split <;> simp_all [vf]
  frame := s.writeWithFlag_frame x r f

/-- When a data run raises (rules R53, R218). -/
theorem State.dataRunRaises_iff (n : Nat) : s.dataRunRaises n = true ↔ RunLeavesMemory s n := by
  simp [State.dataRunRaises, RunLeavesMemory, and_assoc]

/-- Two fault codes never share a number (rule R211). -/
theorem FaultCode.number_inj {c d : FaultCode} : c.number = d.number ↔ c = d := by
  cases c <;> cases d <;> simp [FaultCode.number]

/-- The numbers are those of rule R211's table: 1 to 5. -/
theorem FaultCode.number_range (c : FaultCode) : 1 ≤ c.number ∧ c.number ≤ 5 := by
  cases c <;> simp [FaultCode.number]

/-- The code number the host reads after a fault is raised. -/
@[simp] theorem State.inspectFaultCode_raiseAt (ipc : Word) (c : FaultCode) (w : Option Word) (d : Option DataInfo) :
    (s.raiseAt ipc c w d).inspectFaultCode = some c.number := rfl

/-- Raising a fault in an instruction's rule (rule R212). -/
theorem State.raise_raises (c : FaultCode) (ins : Instr) (d : Option DataInfo) :
    Raises s (s.raise c ins d) c (s.pc - 2) (some (encode ins)) d := rfl

/-- Raising `DataOutOfRange` (rule R218). -/
theorem State.raiseData_raises (ins : Instr) (n : Nat) :
    Raises s (s.raiseData ins n) .dataOutOfRange (s.pc - 2) (some (encode ins)) (some ⟨s.i, n⟩) := rfl

/-- The distance of the k-th byte of a run from `I` (rule R53). -/
theorem State.addrOffset_dataAddr {k : Nat} (hk : k < 4096) : addrOffset (s.dataAddr 0) (s.dataAddr k) = k := by
  unfold addrOffset State.dataAddr; bv_omega

/-- An address at a distance `k` from `I` is the k-th of the run. -/
theorem State.eq_dataAddr_of_addrOffset {a : Addr} {k : Nat} (h : addrOffset (s.dataAddr 0) a = k) :
    a = s.dataAddr k := by
  unfold addrOffset State.dataAddr at *; subst h; bv_omega

/-- The k-th byte after a run of bytes is stored at `I`. -/
theorem State.memRead_writeData (hm : s.memWf = true) {bs : List Byte} (hlen : bs.length ≤ 4096) {k : Nat}
    (hk : k < bs.length) : (s.writeData bs).memRead (s.dataAddr k) = bs.getD k 0 := by
  rw [State.writeData, State.memRead_store hm _ _ hlen, s.addrOffset_dataAddr (by omega), if_pos hk]

/-- Every byte outside the run is as before. -/
theorem State.memRead_writeData_outside (hm : s.memWf = true) {bs : List Byte} (hlen : bs.length ≤ 4096)
    {a : Addr} (ha : ∀ k, k < bs.length → a ≠ s.dataAddr k) : (s.writeData bs).memRead a = s.memRead a := by
  rw [State.writeData, State.memRead_store hm _ _ hlen, if_neg]
  intro h
  exact ha _ h (s.eq_dataAddr_of_addrOffset rfl)

/-- The k-th byte of a run read at `I`. -/
theorem State.getD_readData {n k : Nat} (hk : k < n) : (s.readData n).getD k 0 = s.memRead (s.dataAddr k) := by
  rw [State.readData, Memory.getD_readRun _ _ hk, State.memRead, State.byteAt]
  congr 2
  simp [State.dataAddr]

@[simp] theorem State.length_readData (n : Nat) : (s.readData n).length = n := Memory.length_readRun _ _ _

@[simp] theorem State.length_firstRegs {n : Nat} (hn : n ≤ 16) : (s.firstRegs n).length = n := by
  simp [State.firstRegs]; omega

/-- The k-th of the first registers. -/
theorem State.getD_firstRegs {n : Nat} (k : Nibble) (hk : k.toNat < n) : (s.firstRegs n).getD k.toNat 0 = s.readV k := by
  have h16 : k.toNat < 16 := k.isLt
  simp [State.firstRegs, State.readV, List.getD_eq_getElem?_getD, hk, h16]

/-- Everything a step can do (rules R90, R213, R219). -/
theorem step_cases {s t : State} (h : step s = .next t) :
    (s.fault ≠ none ∧ t = s) ∨
    (s.fault = none ∧ s.fetch16 s.pc = none ∧ t = s.raiseAt s.pc .fetchOutOfRange none none) ∨
    (∃ w, s.fault = none ∧ s.fetch16 s.pc = some w ∧ decode s.cfg.rndPresent w = none ∧
      t = s.raiseAt s.pc .decodeFailure (some w) none) ∨
    ∃ w i, s.fault = none ∧ s.fetch16 s.pc = some w ∧ decode s.cfg.rndPresent w = some i ∧ exec i s.advance = .next t := by
  unfold step cpuTick at h
  split at h
  · left; simp_all
  · rename_i hf
    unfold cycle at h
    split at h
    · right; left; simp_all
    · rename_i w hw
      split at h
      · right; right; left; exact ⟨w, hf, hw, by assumption, by simpa using h.symm⟩
      · right; right; right; exact ⟨w, _, hf, hw, by assumption, h⟩

/-- A fetch succeeds only where both bytes are in memory (rule R51). -/
theorem State.fetch16_eq_none (a : Word) : s.fetch16 a = none ↔ 0xFFF < a.toNat + 1 := by
  unfold State.fetch16; split <;> simp_all

theorem State.fetch16_of_le {a : Word} (h : a.toNat + 1 ≤ 0xFFF) :
    s.fetch16 a = some (wordOfBytes (s.byteAt a.toNat) (s.byteAt (a.toNat + 1))) := by
  unfold State.fetch16; rw [if_neg (by omega)]

end Sys2Proof.Machine
end

