-- ==== Sys2Proof/Laws/PerInstr.lean ====
section
/-! SUPPORT. Per instruction: its word has the fixed bits of its row of the opcode table (rules R75, R84). -/

namespace Sys2Proof

theorem append_and_append {a b : Nat} (u u' : BitVec a) (v v' : BitVec b) :
    (u ++ v) &&& (u' ++ v') = (u &&& u') ++ (v &&& v') := by
  rw [BitVec.and_append]

@[simp] theorem nibble_and_ones (c : Nibble) : c &&& 0xF#4 = c := BitVec.and_allOnes

@[simp] theorem byte_and_ones (b : Byte) : b &&& 0xFF#8 = b := BitVec.and_allOnes

theorem packAddr_and_packAddr (c c' : Nibble) (nnn nnn' : Addr) :
    packAddr c nnn &&& packAddr c' nnn' = packAddr (c &&& c') (nnn &&& nnn') := append_and_append c c' nnn nnn'

theorem packByte_and_packByte (c c' x x' : Nibble) (kk kk' : Byte) :
    packByte c x kk &&& packByte c' x' kk' = packByte (c &&& c') (x &&& x') (kk &&& kk') := by
  unfold packByte
  exact (append_and_append (c ++ x) (c' ++ x') kk kk').trans (by rw [append_and_append])

theorem packRegs_and_packRegs (c c' x x' y y' n n' : Nibble) :
    packRegs c x y n &&& packRegs c' x' y' n' = packRegs (c &&& c') (x &&& x') (y &&& y') (n &&& n') := by
  unfold packRegs
  exact (append_and_append (c ++ x ++ y) (c' ++ x' ++ y') n n').trans
    (by rw [append_and_append (c ++ x) (c' ++ x'), append_and_append])

/-- The mask `0xF000` on a word with an address field. -/
theorem packAddr_mask (c : Nibble) (nnn : Addr) : packAddr c nnn &&& 0xF000#16 = packAddr c 0 := by
  have h : (0xF000#16 : Word) = packAddr 0xF 0 := by decide
  rw [h, packAddr_and_packAddr]; simp

/-- The mask `0xF000` on a word with a register and a byte field. -/
theorem packByte_maskClass (c x : Nibble) (kk : Byte) : packByte c x kk &&& 0xF000#16 = packByte c 0 0 := by
  have h : (0xF000#16 : Word) = packByte 0xF 0 0 := by decide
  rw [h, packByte_and_packByte]; simp

/-- The mask `0xF0FF` on a word with a register field and a function byte. -/
theorem packByte_maskFunction (c x : Nibble) (kk : Byte) : packByte c x kk &&& 0xF0FF#16 = packByte c 0 kk := by
  have h : (0xF0FF#16 : Word) = packByte 0xF 0 0xFF := by decide
  rw [h, packByte_and_packByte]; simp

/-- The mask `0xF000` on a word with two register fields and a nibble field. -/
theorem packRegs_maskClass (c x y n : Nibble) : packRegs c x y n &&& 0xF000#16 = packRegs c 0 0 0 := by
  have h : (0xF000#16 : Word) = packRegs 0xF 0 0 0 := by decide
  rw [h, packRegs_and_packRegs]; simp

/-- The mask `0xF00F` on a word with two register fields and a function nibble. -/
theorem packRegs_maskFunction (c x y n : Nibble) : packRegs c x y n &&& 0xF00F#16 = packRegs c 0 0 n := by
  have h : (0xF00F#16 : Word) = packRegs 0xF 0 0 0xF := by decide
  rw [h, packRegs_and_packRegs]; simp

end Sys2Proof

namespace Sys2Proof.Laws.TableMatch

/-- The instruction's row is in the table, and its word has the row's fixed bits. -/
def Statement (i : Instr) : Prop :=
  tableRow i ∈ opcodeTable ∧ encode i &&& (tableRow i).mask = (tableRow i).pattern

theorem clearScreen : Statement .clearScreen :=
  ⟨by simp [opcodeTable, tableRow], by decide⟩

theorem ret : Statement .ret :=
  ⟨by simp [opcodeTable, tableRow], by decide⟩

theorem jump (nnn : Addr) : Statement (.jump nnn) :=
  ⟨by simp [opcodeTable, tableRow], (packAddr_mask _ _).trans rfl⟩

theorem call (nnn : Addr) : Statement (.call nnn) :=
  ⟨by simp [opcodeTable, tableRow], (packAddr_mask _ _).trans rfl⟩

theorem skipEqLiteral (x : Nibble) (kk : Byte) : Statement (.skipEqLiteral x kk) :=
  ⟨by simp [opcodeTable, tableRow], (packByte_maskClass _ _ _).trans rfl⟩

theorem skipNeLiteral (x : Nibble) (kk : Byte) : Statement (.skipNeLiteral x kk) :=
  ⟨by simp [opcodeTable, tableRow], (packByte_maskClass _ _ _).trans rfl⟩

theorem skipEqReg (x : Nibble) (y : Nibble) : Statement (.skipEqReg x y) :=
  ⟨by simp [opcodeTable, tableRow], (packRegs_maskFunction _ _ _ _).trans rfl⟩

theorem loadLiteral (x : Nibble) (kk : Byte) : Statement (.loadLiteral x kk) :=
  ⟨by simp [opcodeTable, tableRow], (packByte_maskClass _ _ _).trans rfl⟩

theorem addLiteral (x : Nibble) (kk : Byte) : Statement (.addLiteral x kk) :=
  ⟨by simp [opcodeTable, tableRow], (packByte_maskClass _ _ _).trans rfl⟩

theorem move (x : Nibble) (y : Nibble) : Statement (.move x y) :=
  ⟨by simp [opcodeTable, tableRow], (packRegs_maskFunction _ _ _ _).trans rfl⟩

theorem or (x : Nibble) (y : Nibble) : Statement (.or x y) :=
  ⟨by simp [opcodeTable, tableRow], (packRegs_maskFunction _ _ _ _).trans rfl⟩

theorem and (x : Nibble) (y : Nibble) : Statement (.and x y) :=
  ⟨by simp [opcodeTable, tableRow], (packRegs_maskFunction _ _ _ _).trans rfl⟩

theorem xor (x : Nibble) (y : Nibble) : Statement (.xor x y) :=
  ⟨by simp [opcodeTable, tableRow], (packRegs_maskFunction _ _ _ _).trans rfl⟩

theorem add (x : Nibble) (y : Nibble) : Statement (.add x y) :=
  ⟨by simp [opcodeTable, tableRow], (packRegs_maskFunction _ _ _ _).trans rfl⟩

theorem sub (x : Nibble) (y : Nibble) : Statement (.sub x y) :=
  ⟨by simp [opcodeTable, tableRow], (packRegs_maskFunction _ _ _ _).trans rfl⟩

theorem shiftRight (x : Nibble) (y : Nibble) : Statement (.shiftRight x y) :=
  ⟨by simp [opcodeTable, tableRow], (packRegs_maskFunction _ _ _ _).trans rfl⟩

theorem subReverse (x : Nibble) (y : Nibble) : Statement (.subReverse x y) :=
  ⟨by simp [opcodeTable, tableRow], (packRegs_maskFunction _ _ _ _).trans rfl⟩

theorem shiftLeft (x : Nibble) (y : Nibble) : Statement (.shiftLeft x y) :=
  ⟨by simp [opcodeTable, tableRow], (packRegs_maskFunction _ _ _ _).trans rfl⟩

theorem skipNeReg (x : Nibble) (y : Nibble) : Statement (.skipNeReg x y) :=
  ⟨by simp [opcodeTable, tableRow], (packRegs_maskFunction _ _ _ _).trans rfl⟩

theorem loadIndex (nnn : Addr) : Statement (.loadIndex nnn) :=
  ⟨by simp [opcodeTable, tableRow], (packAddr_mask _ _).trans rfl⟩

theorem jumpOffset (nnn : Addr) : Statement (.jumpOffset nnn) :=
  ⟨by simp [opcodeTable, tableRow], (packAddr_mask _ _).trans rfl⟩

theorem random (x : Nibble) (kk : Byte) : Statement (.random x kk) :=
  ⟨by simp [opcodeTable, tableRow], (packByte_maskClass _ _ _).trans rfl⟩

theorem draw (x : Nibble) (y : Nibble) (n : Nibble) : Statement (.draw x y n) :=
  ⟨by simp [opcodeTable, tableRow], (packRegs_maskClass _ _ _ _).trans rfl⟩

theorem skipKeyPressed (x : Nibble) : Statement (.skipKeyPressed x) :=
  ⟨by simp [opcodeTable, tableRow], (packByte_maskFunction _ _ _).trans rfl⟩

theorem skipKeyNotPressed (x : Nibble) : Statement (.skipKeyNotPressed x) :=
  ⟨by simp [opcodeTable, tableRow], (packByte_maskFunction _ _ _).trans rfl⟩

theorem loadDelay (x : Nibble) : Statement (.loadDelay x) :=
  ⟨by simp [opcodeTable, tableRow], (packByte_maskFunction _ _ _).trans rfl⟩

theorem waitKey (x : Nibble) : Statement (.waitKey x) :=
  ⟨by simp [opcodeTable, tableRow], (packByte_maskFunction _ _ _).trans rfl⟩

theorem setDelay (x : Nibble) : Statement (.setDelay x) :=
  ⟨by simp [opcodeTable, tableRow], (packByte_maskFunction _ _ _).trans rfl⟩

theorem setSound (x : Nibble) : Statement (.setSound x) :=
  ⟨by simp [opcodeTable, tableRow], (packByte_maskFunction _ _ _).trans rfl⟩

theorem addIndex (x : Nibble) : Statement (.addIndex x) :=
  ⟨by simp [opcodeTable, tableRow], (packByte_maskFunction _ _ _).trans rfl⟩

theorem fontAddress (x : Nibble) : Statement (.fontAddress x) :=
  ⟨by simp [opcodeTable, tableRow], (packByte_maskFunction _ _ _).trans rfl⟩

theorem storeBcd (x : Nibble) : Statement (.storeBcd x) :=
  ⟨by simp [opcodeTable, tableRow], (packByte_maskFunction _ _ _).trans rfl⟩

theorem storeRegisters (x : Nibble) : Statement (.storeRegisters x) :=
  ⟨by simp [opcodeTable, tableRow], (packByte_maskFunction _ _ _).trans rfl⟩

theorem loadRegisters (x : Nibble) : Statement (.loadRegisters x) :=
  ⟨by simp [opcodeTable, tableRow], (packByte_maskFunction _ _ _).trans rfl⟩

end Sys2Proof.Laws.TableMatch
end

