-- ==== Sys2Proof/Tests/Slice0.lean ====
section
/-! SUPPORT. The model's own tests. Expected results come from the spec: 30_encoding.md for words, the worked examples and
vectors of 95_test_vectors.md (S<n> of Part L1, the families of Part L2) for effects. At the end, one witness for each
statement that has hypotheses, at the boundary values of its clauses. -/

open Sys2Proof Sys2Proof.Machine

namespace Sys2Proof.Tests

/-! ## Helpers -/

/-- The configuration the tests name: the values rule R7 fixes, and one choice for each OPEN parameter. -/
def conf : Params where
  stackDepth := some 16
  rndPresent := true
  shiftQuirk := .inPlace
  jumpQuirk := .v0
  addIVf := true
  addIOverflow := .wrap
  memOob := .fault
  vfOrder := .flagThenResult
  fontGlyphBytes := 5
  fontData := hexFont

/-- Another font: 16 glyphs of one byte each, glyph `g` being the byte `g`, and nothing after them. -/
def otherFont : Font :=
  ⟨([0x00, 0x01, 0x02, 0x03, 0x04, 0x05, 0x06, 0x07] ++ [0x08, 0x09, 0x0A, 0x0B, 0x0C, 0x0D, 0x0E, 0x0F] ++
    List.replicate 64 0x00 : List Byte).toArray, rfl⟩

/-- The other choice for every parameter with two values, and another font. -/
def conf' : Params where
  stackDepth := none
  rndPresent := false
  shiftQuirk := .fromVy
  jumpQuirk := .vx
  addIVf := false
  addIOverflow := .saturate
  memOob := .wrap
  vfOrder := .resultThenFlag
  fontGlyphBytes := 1
  fontData := otherFont

/-- A state after reset, with some registers and the index register set. -/
def start (c : Params) (i : Addr) (regs : List (Nibble × Byte)) : State :=
  regs.foldl (fun s p => s.writeV p.1 p.2) { State.resetWith c 0 with i := i }

/-- The state an outcome holds, if it is a next state. -/
def nextOf : Host.Outcome State Fault Refusal → Option State
  | .next t => some t
  | .fault _ => none
  | .refused _ => none

/-- One step on a word placed at `pc`. -/
def ran (s : State) (w : Nat) : Option State := nextOf (step (s.withFetchWord 16 w))

/-- What `f` reads in the state after one step on a word. -/
def got {α : Type} (s : State) (w : Nat) (f : State → α) : Option α := (ran s w).map f

/-- A registers-and-flag view of a state. -/
def regs (x : Nibble) (s : State) : Byte × Byte := (s.readV x, s.readV 0xF)

/-- A stack of `n` return addresses. -/
def deep (n : Nat) : List Word := List.replicate n 0x202#16

/-! ## Well-formedness: its one check (rule R78) -/

theorem test_wellFormed_random_refused : (Instr.random 0x3 0xFF).wellFormed false = false := by decide

theorem test_wellFormed_random_accepted : (Instr.random 0x3 0xFF).wellFormed true = true := by decide

/-! ## Decoding: a word of every row, its bits written from the spec's encodings (rules R72, R75) -/

theorem test_decode_class0 :
    decode true 0b0000000011100000#16 = some .clearScreen ∧ decode true 0b0000000011101110#16 = some .ret := by decide

theorem test_decode_addresses :
    decode true 0b0001_101010111100#16 = some (.jump 0xABC) ∧ decode true 0b0010_010001010110#16 = some (.call 0x456) ∧
    decode true 0b1010_001011110000#16 = some (.loadIndex 0x2F0) ∧
    decode true 0b1011_111111111111#16 = some (.jumpOffset 0xFFF) := by decide

theorem test_decode_skips :
    decode true 0b0011_1110_00000000#16 = some (.skipEqLiteral 0xE 0x00) ∧
    decode true 0b0100_0001_00000101#16 = some (.skipNeLiteral 0x1 0x05) ∧
    decode true 0b0101_1010_1011_0000#16 = some (.skipEqReg 0xA 0xB) ∧
    decode true 0b1001_0001_0010_0000#16 = some (.skipNeReg 0x1 0x2) := by decide

theorem test_decode_literals :
    decode true 0b0110_0001_10100101#16 = some (.loadLiteral 0x1 0xA5) ∧
    decode true 0b0111_0001_00000010#16 = some (.addLiteral 0x1 0x02) ∧
    decode true 0b1100_0011_11111111#16 = some (.random 0x3 0xFF) := by decide

theorem test_decode_class8 :
    decode true 0b1000_0001_0010_0000#16 = some (.move 0x1 0x2) ∧
    decode true 0b1000_0001_0010_0001#16 = some (.or 0x1 0x2) ∧
    decode true 0b1000_0001_0010_0010#16 = some (.and 0x1 0x2) ∧
    decode true 0b1000_0001_0010_0011#16 = some (.xor 0x1 0x2) ∧
    decode true 0b1000_0000_0001_0100#16 = some (.add 0x0 0x1) := by decide

theorem test_decode_class8_subtracts_and_shifts :
    decode true 0b1000_0000_0001_0101#16 = some (.sub 0x0 0x1) ∧
    decode true 0b1000_0000_0001_0110#16 = some (.shiftRight 0x0 0x1) ∧
    decode true 0b1000_1010_1011_0111#16 = some (.subReverse 0xA 0xB) ∧
    decode true 0b1000_1010_1011_1110#16 = some (.shiftLeft 0xA 0xB) := by decide

theorem test_decode_draw_and_keys :
    decode true 0b1101_0011_1010_0111#16 = some (.draw 0x3 0xA 0x7) ∧
    decode true 0b1110_0001_10011110#16 = some (.skipKeyPressed 0x1) ∧
    decode true 0b1110_0001_10100001#16 = some (.skipKeyNotPressed 0x1) ∧
    decode true 0b1111_0001_00001010#16 = some (.waitKey 0x1) := by decide

theorem test_decode_timers_and_index :
    decode true 0b1111_0010_00000111#16 = some (.loadDelay 0x2) ∧
    decode true 0b1111_0010_00010101#16 = some (.setDelay 0x2) ∧
    decode true 0b1111_0010_00011000#16 = some (.setSound 0x2) ∧
    decode true 0b1111_1111_00011110#16 = some (.addIndex 0xF) ∧
    decode true 0b1111_0000_00101001#16 = some (.fontAddress 0x0) := by decide

theorem test_decode_memory :
    decode true 0b1111_1111_00110011#16 = some (.storeBcd 0xF) ∧
    decode true 0b1111_0001_01010101#16 = some (.storeRegisters 0x1) ∧
    decode true 0b1111_0000_01100101#16 = some (.loadRegisters 0x0) := by decide

/-- The failure rows of the decode table of Part L2. -/
theorem test_decode_failures :
    [0x0000#16, 0x00E1#16, 0x0123#16, 0x5AB1#16, 0x9AB1#16, 0x8AB8#16, 0x8ABF#16, 0xE100#16, 0xE19F#16, 0xF100#16,
      0xF1FF#16, 0xF175#16, 0xFFFF#16].map (decode true) = List.replicate 13 none := by decide

theorem test_decode_random_absent : decode false 0xC3FF#16 = none := by decide

theorem test_encode_examples :
    encode (.draw 0x3 0xA 0x7) = 0xD3A7#16 ∧ encode (.loadIndex 0x2F0) = 0xA2F0#16 ∧
    encode (.skipEqLiteral 0xE 0x00) = 0x3E00#16 ∧ encode (.storeBcd 0xF) = 0xFF33#16 := by decide

theorem test_decodeTableWord_draw : decodeTableWord 16 0xD3A7 = some (.draw 0x3 0xA 0x7) := by decide

theorem test_decodeBytes_big_endian : decodeBytes true [0xA2#8, 0xF0#8, 0x12#8] = some (.loadIndex 0x2F0, [0x12#8]) := by
  decide

/-! ## Control flow (Part L2, family 40; S5, S9) -/

theorem test_jump : got (start conf 0 []) 0x1ABC State.pc = some 0xABC#16 := by decide

theorem test_call_pushes : got (start conf 0 []) 0x2456 (fun t => (t.pc, t.stack)) = some (0x456#16, [0x202#16]) := by decide

theorem test_call_full : got { start conf 0 [] with stack := deep 16 } 0x2300 (fun t => (t.fault, t.stack)) =
    some (some ⟨.stackOverflow, 0x200#16, some 0x2300#16, none⟩, deep 16) := by decide

theorem test_ret_pops :
    got { start conf 0 [] with stack := [0x111#16, 0x202#16], pc := 0x456#16 } 0x00EE (fun t => (t.pc, t.stack)) =
      some (0x202#16, [0x111#16]) := by decide

theorem test_ret_empty : got (start conf 0 []) 0x00EE (fun t => (t.pc, t.fault)) =
    some (0x200#16, some ⟨.stackUnderflow, 0x200#16, some 0x00EE#16, none⟩) := by decide

theorem test_jumpOffset_v0 : got (start conf 0 [(0, 0x01), (2, 0x10)]) 0xB2F0 State.pc = some 0x2F1#16 := by decide

theorem test_jumpOffset_vx : got (start conf' 0 [(0, 0x01), (2, 0x10)]) 0xB2F0 State.pc = some 0x300#16 := by decide

theorem test_jumpOffset_not_reduced : got (start conf 0 [(0, 0xFF)]) 0xBFFF State.pc = some 0x10FE#16 := by decide

theorem test_skipEqLiteral : got (start conf 0 [(1, 0x05)]) 0x3105 State.pc = some 0x204#16 ∧
    got (start conf 0 [(1, 0x05)]) 0x3106 State.pc = some 0x202#16 := by decide

theorem test_skipNeLiteral : got (start conf 0 [(1, 0x05)]) 0x4105 State.pc = some 0x202#16 ∧
    got (start conf 0 [(1, 0x05)]) 0x4106 State.pc = some 0x204#16 := by decide

theorem test_skipEqReg : got (start conf 0 [(1, 0x07), (2, 0x07)]) 0x5120 State.pc = some 0x204#16 ∧
    got (start conf 0 [(1, 0x07), (2, 0x08)]) 0x5120 State.pc = some 0x202#16 := by decide

theorem test_skipNeReg : got (start conf 0 [(1, 0x07), (2, 0x08)]) 0x9120 State.pc = some 0x204#16 ∧
    got (start conf 0 [(1, 0x07)]) 0x9110 State.pc = some 0x202#16 := by decide

/-! ## Registers and ALU (Part L2, family 41; S3, S4) -/

theorem test_logic : [0x8121, 0x8122, 0x8123].map
    (fun w => got (start conf 0 [(1, 0xF0), (2, 0x3C), (0xF, 0x55)]) w (regs 1)) =
      [some (0xFC#8, 0x55#8), some (0x30#8, 0x55#8), some (0xCC#8, 0x55#8)] := by decide

theorem test_moves_and_literals : [0x8120, 0x61A5, 0x71FF].map
    (fun w => got (start conf 0 [(1, 0xF0), (2, 0x3C), (0xF, 0x55)]) w (regs 1)) =
      [some (0x3C#8, 0x55#8), some (0xA5#8, 0x55#8), some (0xEF#8, 0x55#8)] := by decide

theorem test_add_carries : [(0xFF#8, 0x01#8), (0x7F#8, 0x01#8), (0xFF#8, 0xFF#8)].map
    (fun p => got (start conf 0 [(0, p.1), (1, p.2)]) 0x8014 (regs 0)) =
      [some (0x00#8, 1#8), some (0x80#8, 0#8), some (0xFE#8, 1#8)] := by decide

theorem test_sub_borrows : [(0x05#8, 0x03#8), (0x03#8, 0x05#8), (0x05#8, 0x05#8)].map
    (fun p => got (start conf 0 [(0, p.1), (1, p.2)]) 0x8015 (regs 0)) =
      [some (0x02#8, 1#8), some (0xFE#8, 0#8), some (0x00#8, 1#8)] := by decide

theorem test_subReverse_borrows : [(0x03#8, 0x05#8), (0x05#8, 0x03#8), (0x02#8, 0x01#8)].map
    (fun p => got (start conf 0 [(0, p.1), (1, p.2)]) 0x8017 (regs 0)) =
      [some (0x02#8, 1#8), some (0xFE#8, 0#8), some (0xFF#8, 0#8)] := by decide

theorem test_shiftRight_quirks : [conf, conf'].map (fun c => got (start c 0 [(0, 0x05), (1, 0x80)]) 0x8016 (regs 0)) =
    [some (0x02#8, 1#8), some (0x40#8, 0#8)] := by decide

theorem test_shiftLeft_quirks : [conf, conf'].map (fun c => got (start c 0 [(0, 0x81), (1, 0x40)]) 0x801E (regs 0)) =
    [some (0x02#8, 1#8), some (0x80#8, 0#8)] := by decide

theorem test_flag_register_as_destination :
    [conf, conf'].map (fun c => got (start c 0 [(0xF, 0x10), (1, 0x20)]) 0x8F14 (regs 0xF)) =
      [some (0x30#8, 0x30#8), some (0x00#8, 0x00#8)] := by decide

theorem test_flag_register_as_source :
    [conf, conf'].map (fun c => got (start c 0 [(0xF, 0x20), (0, 0xF0)]) 0x80F4 (regs 0)) =
      [some (0x10#8, 0x01#8), some (0x10#8, 0x01#8)] := by decide

theorem test_random : [0x0F#8, 0x00#8, 0xFF#8].map (fun kk => (randomWith 0xA7 0x3 kk (start conf 0 [])).readV 3) =
    [0x07#8, 0x00#8, 0xA7#8] := by decide

/-! ## Index register and memory (Part L2, family 42; S7) -/

theorem test_loadIndex : got (start conf 0 []) 0xA123 State.i = some 0x123#12 := by decide

theorem test_addIndex_overflow : [conf, conf'].map (fun c => got (start c 0xFFF [(1, 0x01), (0xF, 0x05)]) 0xF11E
    (fun t => (t.i, t.readV 0xF))) = [some (0x000#12, 1#8), some (0xFFF#12, 0x05#8)] := by decide

theorem test_addIndex_flag_register : got (start conf 0x100 [(0xF, 0x05)]) 0xFF1E (fun t => (t.i, t.readV 0xF)) =
    some (0x105#12, 0#8) := by decide

theorem test_fontAddress : [0x00#8, 0x0F#8, 0x1A#8, 0xFF#8].map (fun b => got (start conf 0 [(0, b)]) 0xF029 State.i) =
    [some 0x050#12, some 0x09B#12, some 0x082#12, some 0x09B#12] := by decide

theorem test_storeBcd : got (start conf 0x300 [(0, 0x80)]) 0xF033
    (fun t => [0x300#12, 0x301#12, 0x302#12].map t.memRead) = some [0x01#8, 0x02#8, 0x08#8] := by decide

theorem test_storeBcd_past_the_end : got (start conf 0xFFE [(0, 0x01)]) 0xF033 (fun t => (t.fault, t.pc, t.memRead 0xFFE)) =
    some (some ⟨.dataOutOfRange, 0x200#16, some 0xF033#16, some ⟨0xFFE#12, 3⟩⟩, 0x200#16, 0x00#8) := by decide

theorem test_storeRegisters : got (start conf 0x300 [(0, 0x11), (1, 0x22), (2, 0x33)]) 0xF155
    (fun t => ([0x300#12, 0x301#12, 0x302#12].map t.memRead, t.i)) =
      some ([0x11#8, 0x22#8, 0x00#8], 0x300#12) := by decide

theorem test_storeRegisters_wraps : got (start conf' 0xFF1 [(0xF, 0x77)]) 0xFF55 (fun t => t.memRead 0x000) =
    some 0x77#8 := by decide

theorem test_loadRegisters : got { start conf 0x300 [(1, 0x22)] with mem := [(0x300, 0x11#8), (0x301, 0x99#8)] } 0xF065
    (fun t => (t.readV 0, t.readV 1, t.i)) = some (0x11#8, 0x22#8, 0x300#12) := by decide

/-! ## Timers and keys (Part L2, family 43) -/

theorem test_timer_instructions : got (start conf 0 [(2, 0x3C)]) 0xF215 State.dt = some 0x3C#8 ∧
    got (start conf 0 [(2, 0x05)]) 0xF218 (fun t => (t.st, t.dt)) = some (0x05#8, 0x00#8) ∧
    got { start conf 0 [] with dt := 0x3C#8 } 0xF207 (fun t => t.readV 2) = some 0x3C#8 := by decide

theorem test_timerTick : [(0x00#8, 0x00#8), (0x05#8, 0x01#8), (0xFF#8, 0xFF#8)].map
    (fun p => let t := State.timerTick { start conf 0 [] with dt := p.1, st := p.2 }; (t.dt, t.st)) =
      [(0x00#8, 0x00#8), (0x04#8, 0x00#8), (0xFE#8, 0xFE#8)] := by decide

theorem test_keyIndex : State.keyIndex (start conf 0 [(1, 0x13)]) 1 = 0x3#4 := by decide

theorem test_key_skips : (skipKeyPressedWith true { start conf 0 [] with pc := 0x202#16 }).pc = 0x204#16 ∧
    (skipKeyPressedWith false { start conf 0 [] with pc := 0x202#16 }).pc = 0x202#16 ∧
    (skipKeyNotPressedWith false { start conf 0 [] with pc := 0x202#16 }).pc = 0x204#16 := by decide

theorem test_waitKey : (waitKeyWith none 0x3 { start conf 0 [] with pc := 0x202#16 }).pc = 0x200#16 ∧
    (waitKeyWith (some 7) 0x3 { start conf 0 [] with pc := 0x202#16 }).readV 3 = 0x07#8 := by decide

/-! ## Display (Part L2, family 44; S6) -/

/-- A start of that family: two sprite bytes 0xFF at 0x300. -/
def canvas (regs : List (Nibble × Byte)) : State :=
  { start conf 0x300 regs with mem := [(0x300, 0xFF#8), (0x301, 0xFF#8)] }

/-- Some pixels of a row. -/
def pixels (row : Nat) (cols : List Nat) (s : State) : List Bool := cols.map (getPixel s.fb row)

theorem test_draw_clips_at_the_right : got (canvas [(1, 62)]) 0xD121
    (fun t => (pixels 0 [0, 5, 61, 62, 63] t, pixels 1 [0, 62] t, t.readV 0xF)) =
      some ([false, false, false, true, true], [false, false], 0#8) := by decide

theorem test_draw_collides : got { canvas [] with fb := setPixel (canvas []).fb 0 3 true } 0xD121
    (fun t => (pixels 0 [2, 3, 4, 7, 8] t, t.readV 0xF)) = some ([true, false, true, true, false], 1#8) := by decide

theorem test_draw_flag_register_as_coordinate : got (canvas [(0xF, 0x03)]) 0xDF21
    (fun t => (pixels 0 [2, 3, 10, 11] t, t.readV 0xF)) = some ([false, true, true, false], 0#8) := by decide

theorem test_draw_past_the_end : got (start conf 0xFFF [(0xF, 0x09)]) 0xD122 (fun t => (t.fault, t.readV 0xF)) =
    some (some ⟨.dataOutOfRange, 0x200#16, some 0xD122#16, some ⟨0xFFF#12, 2⟩⟩, 0x09#8) := by decide

theorem test_clearScreen : got { start conf 0 [] with fb := setPixel (start conf 0 []).fb 31 63 true } 0x00E0
    (pixels 31 [0, 62, 63]) = some [false, false, false] := by decide

/-! ## Faults, fetch, load and reset (Part L2, families 40, 60 and 70) -/

theorem test_decode_failure : got (start conf 0 []) 0xFFFF (fun t => (t.pc, t.fault)) =
    some (0x200#16, some ⟨.decodeFailure, 0x200#16, some 0xFFFF#16, none⟩) := by decide

/-- The first column of the table of rule R211, and the code the host reads after CALL on a full stack. -/
theorem test_fault_numbers : [FaultCode.fetchOutOfRange, .decodeFailure, .stackUnderflow, .stackOverflow, .dataOutOfRange].map
    FaultCode.number = [1, 2, 3, 4, 5] ∧
    got { start conf 0 [] with stack := deep 16 } 0x2300 State.inspectFaultCode = some (some 4) ∧
    (start conf 0 []).inspectFaultCode = none := by decide

theorem test_fetch_past_the_end : (nextOf (step { start conf 0 [] with pc := 0xFFF#16 })).map State.fault =
    some (some ⟨.fetchOutOfRange, 0xFFF#16, none, none⟩) := by decide

theorem test_fetch_at_the_end : got { start conf 0 [] with pc := 0xFFE#16 } 0x1200 State.pc = some 0x200#16 := by decide

theorem test_fetch_odd : got { start conf 0 [] with pc := 0x201#16 } 0x1300 State.pc = some 0x300#16 := by decide

theorem test_load : ((start conf 0 []).load [0x12#8, 0x00#8, 0x12#8]).state.fetch16 0x202 = some 0x1200#16 := by decide

theorem test_reset_font : [0x04F#12, 0x050#12, 0x09F#12, 0x0A0#12].map State.reset.memRead =
    [0x00#8, 0xF0#8, 0x80#8, 0x00#8] := by decide

/-- The font and the glyph size are parameters (D3): another font is what reset leaves and what LD F points into. -/
theorem test_other_font : [0x050#12, 0x051#12, 0x05F#12, 0x060#12].map (start conf' 0 []).memRead =
    [0x00#8, 0x01#8, 0x0F#8, 0x00#8] ∧ got (start conf' 0 [(0, 0x0A)]) 0xF029 (fun t => (t.i, t.memRead t.i)) =
      some (0x05A#12, 0x0A#8) := by decide

/-- From reset, the host's placed word is the next one run, whatever the OPEN parameters and the inputs are. -/
theorem test_reset_runs_a_placed_word : step (State.reset.withFetchWord 16 0xE19E) =
    exec (.skipKeyPressed 0x1) { State.reset.withFetchWord 16 0xE19E with pc := 0x202#16 } := rfl

/-! ## Witnesses: the hypotheses of the statements are met -/

theorem witness_DecodeOfEncode : (Instr.random 0xF 0xFF).wellFormed true = true ∧
    (Instr.draw 0xF 0xF 0xF).wellFormed false = true := by decide

theorem witness_EncodeOfDecode : decode true 0xFF65#16 = some (.loadRegisters 0xF) := by decide

theorem witness_DecoderAccepts : decode true 0x8ABE#16 = some (.shiftLeft 0xA 0xB) ∧
    0x8ABE#16 &&& (tableRow (.shiftLeft 0xA 0xB)).mask = (tableRow (.shiftLeft 0xA 0xB)).pattern := by decide

/-- At the last address a word can be fetched from. -/
def atTheEnd : State := { start conf 0 [] with pc := 0xFFE#16, mem := [(0xFFE, 0x12#8)] }

theorem witness_StepRuns : atTheEnd.fault = none ∧ atTheEnd.pc.toNat + 1 ≤ 0xFFF ∧
    decodeBytes atTheEnd.cfg.rndPresent [atTheEnd.byteAt atTheEnd.pc.toNat,
      atTheEnd.byteAt (atTheEnd.pc.toNat + 1)] = some (.jump 0x200, []) := by decide

theorem witness_Fetch_inside : (0xFFE#16).toNat + 1 ≤ 0xFFF ∧ atTheEnd.fetch16 0xFFE = some 0x1200#16 := by decide

theorem witness_Fetch_outside : (start conf 0 []).fault = none ∧
    0xFFF < ({ start conf 0 [] with pc := 0xFFF#16 } : State).pc.toNat + 1 := by decide

theorem witness_DecodeFailure : (start conf 0 []).fault = none ∧
    (start conf 0 []).fetch16 (start conf 0 []).pc = some 0x0000#16 ∧ decode true 0x0000#16 = none := by decide

/-- A state that holds a fault. -/
def stopped : State :=
  { start conf 0 [] with fault := some ⟨.decodeFailure, 0x200#16, some 0x0000#16, none⟩, dt := 2, st := 0 }

theorem witness_HeldFault : stopped.fault = some ⟨.decodeFailure, 0x200#16, some 0x0000#16, none⟩ ∧
    (List.replicate 3584 (0x12#8)).length ≤ 3584 ∧
    command .reset stopped = .next ⟨.ok, stopped.hostReset⟩ ∧ stopped.hostReset.fault = none :=
  ⟨by decide, by rw [List.length_replicate], rfl, rfl⟩

theorem witness_FaultsArePrecise_code : ∃ t, step (start conf 0 []) = .next t ∧ (start conf 0 []).fault = none ∧
    t.fault = some ⟨.decodeFailure, 0x200#16, some 0x0000#16, none⟩ := ⟨_, rfl, by decide, by decide⟩

/-- A state whose next instruction, LD B, leaves memory. -/
def storesOutside : State := { start conf 0xFFE [] with mem := [(0x200, 0xF0#8), (0x201, 0x33#8)] }

theorem witness_FaultsArePrecise_data : ∃ t, step storesOutside = .next t ∧ storesOutside.fault = none ∧
    t.fault = some ⟨.dataOutOfRange, 0x200#16, some 0xF033#16, some ⟨0xFFE#12, 3⟩⟩ := ⟨_, rfl, by decide, by decide⟩

theorem witness_FaultsArePrecise_underflow : ∃ t, step { start conf 0 [] with mem := [(0x201, 0xEE#8)] } = .next t ∧
    t.fault = some ⟨.stackUnderflow, 0x200#16, some 0x00EE#16, none⟩ := ⟨_, rfl, by decide⟩

theorem witness_FaultsArePrecise_overflow :
    ∃ t, step { start conf 0 [] with mem := [(0x200, 0x23#8)], stack := deep 16 } = .next t ∧
      t.fault = some ⟨.stackOverflow, 0x200#16, some 0x2300#16, none⟩ := ⟨_, rfl, by decide⟩

theorem witness_FaultsArePrecise_raised : storesOutside.fetch16 storesOutside.pc = some 0xF033#16 ∧
    decode true 0xF033#16 = some (.storeBcd 0) ∧ dataRunLength (.storeBcd 0) = some 3 ∧ RunLeavesMemory storesOutside 3 := by
  unfold RunLeavesMemory; decide

theorem witness_FaultsArePrecise_fetch : ∃ t, step { start conf 0 [] with pc := 0xFFF#16 } = .next t ∧
    t.fault = some ⟨.fetchOutOfRange, 0xFFF#16, none, none⟩ := ⟨_, rfl, by decide⟩

theorem witness_OnlySixRaise_ret : ∃ t, exec .ret (start conf 0 []) = .next t ∧ t.fault ≠ (start conf 0 []).fault :=
  ⟨_, rfl, by decide⟩

theorem witness_OnlySixRaise_call : ∃ t, exec (.call 0x300) { start conf 0 [] with stack := deep 16 } = .next t ∧
    t.fault ≠ none := ⟨_, rfl, by decide⟩

theorem witness_OnlySixRaise_data : ∃ t, exec (.draw 1 2 2) (start conf 0xFFF []) = .next t ∧ t.fault ≠ none :=
  ⟨_, rfl, by decide⟩

theorem witness_Call_room : ({ start conf 0 [] with stack := deep 15 } : State).cfg.stackDepth ≠ some (deep 15).length ∧
    (start conf' 0 []).cfg.stackDepth ≠ some 16 := by decide

theorem witness_Call_full : ({ start conf 0 [] with stack := deep 16 } : State).cfg.stackDepth = some (deep 16).length := by
  decide

theorem witness_Return : ([0x202#16] : List Word) = [] ++ [0x202#16] ∧ (start conf 0 []).stack = [] := by decide

theorem witness_ReturnUndoesCall : ∃ t u : State, exec (.call 0x300) (start conf 0 []) = .next t ∧ t.fault = none ∧
    u.stack = t.stack ∧ u.pc = 0x456#16 :=
  ⟨_, { start conf 0 [] with stack := [0x200#16], pc := 0x456#16 }, rfl, by decide, by decide, by decide⟩

theorem witness_JumpOffset : (start conf 0 []).cfg.jumpQuirk = .v0 ∧ (start conf' 0 []).cfg.jumpQuirk = .vx := by decide

theorem witness_AddSubtract_flag_register : ((0xF : Nibble) = 0xF#4) ∧ ((0xE : Nibble) ≠ 0xF#4) := by decide

theorem witness_Shifts : ((start conf 0 []).cfg.shiftQuirk = .inPlace ∧
      0x81#8 = (start conf 0 [(1, 0x81)]).readV 1) ∧
    ((start conf' 0 []).cfg.shiftQuirk = .fromVy ∧ 0x81#8 = (start conf' 0 [(2, 0x81)]).readV 2) := by decide

theorem witness_FlagsAgree_carry : ∃ t, exec (.add 0 1) (start conf 0 [(0, 0xFF), (1, 0x01)]) = .next t ∧
    (0 : Nibble) ≠ 0xF#4 ∧ t.readV 0xF = 1#8 ∧ (t.readV 0).toNat < 0xFF := ⟨_, rfl, by decide, by decide, by decide⟩

theorem witness_FlagsAgree_noBorrow : ∃ t, exec (.sub 0 1) (start conf 0 [(0, 0x05), (1, 0x05)]) = .next t ∧
    (0 : Nibble) ≠ 0xF#4 ∧ t.readV 0xF = 1#8 ∧ (t.readV 0).toNat ≤ 0x05 := ⟨_, rfl, by decide, by decide, by decide⟩

/-- Runs of 1 and 16 bytes that end at the last byte of memory stay inside, and a run one byte on leaves it. -/
theorem witness_DataAddress : (0 < 1 ∧ (start conf 0xFFF []).i.toNat + 1 - 1 ≤ 0xFFF) ∧
    (15 < 16 ∧ (start conf 0xFF0 []).i.toNat + 16 - 1 ≤ 0xFFF) ∧
    (start conf 0xFF1 []).dataRunRaises 16 = true ∧ (start conf' 0xFF1 []).dataRunRaises 16 = false ∧
    ((start conf' 0xFF1 []).dataAddr 15).toNat = (0xFF1 + 15) % 4096 := by decide

theorem witness_AddIndex : (start conf 0xFFE [(1, 0x01)]).i.toNat + ((start conf 0xFFE [(1, 0x01)]).readV 1).toNat < 0x1000 ∧
    0x1000 ≤ (start conf 0xFFF [(1, 0x01)]).i.toNat + ((start conf 0xFFF [(1, 0x01)]).readV 1).toNat ∧
    conf.addIOverflow = .wrap ∧ conf'.addIOverflow = .saturate ∧ conf.addIVf = true ∧ conf'.addIVf = false := by decide

/-- A run of three bytes that ends at the last byte of memory stays inside. -/
theorem witness_StoreBcd_inside : ¬RunLeavesMemory (start conf 0xFFD []) 3 ∧ (start conf 0xFFD []).memWf = true := by
  unfold RunLeavesMemory; decide

theorem witness_StoreBcd_outside : RunLeavesMemory (start conf 0xFFE []) 3 ∧ ¬RunLeavesMemory (start conf' 0xFFE []) 3 := by
  unfold RunLeavesMemory; decide

/-- The longest run that ends at the last byte of memory, for the block store and the block load. -/
theorem witness_StoreRegisters_inside : ¬RunLeavesMemory (start conf 0xFF0 []) ((0xF#4).toNat + 1) ∧
    (start conf 0xFF0 []).memWf = true ∧ ((0xF#4).toNat ≤ (0xF#4).toNat) := by
  unfold RunLeavesMemory; decide

theorem witness_StoreRegisters_outside : RunLeavesMemory (start conf 0xFF1 []) ((0xF#4).toNat + 1) := by
  unfold RunLeavesMemory; decide

theorem witness_LoadRegisters_above : (0xE#4).toNat < (0xF#4).toNat ∧
    ¬RunLeavesMemory (start conf 0xFF1 []) ((0xE#4).toNat + 1) := by unfold RunLeavesMemory; decide

theorem witness_LoadRegisters_outside : RunLeavesMemory (start conf 0xFFF []) ((0x1#4).toNat + 1) := by
  unfold RunLeavesMemory; decide

theorem witness_DataOutOfRange_lengths : dataRunLength (.draw 1 2 0) = some 0 ∧ dataRunLength (.draw 1 2 0xF) = some 15 ∧
    dataRunLength (.storeBcd 0) = some 3 ∧ dataRunLength (.storeRegisters 0xF) = some 16 ∧
    dataRunLength (.loadRegisters 0) = some 1 := by decide

/-- No run without a byte leaves memory; one byte at 0xFFF stays inside, two leave it. -/
theorem witness_DataOutOfRange_boundary : ¬RunLeavesMemory (start conf 0xFFF []) 0 ∧
    ¬RunLeavesMemory (start conf 0xFFF []) 1 ∧ RunLeavesMemory (start conf 0xFFF []) 2 := by
  unfold RunLeavesMemory; decide

/-- A block store over the next word, and over the last word of memory. -/
theorem witness_StoreIsSeen : ((start conf 0x202 []).i.setWidth 16 = 0x202#16 ∧ 1 ≤ (0x1#4).toNat ∧
      (start conf 0x202 []).i.toNat + (0x1#4).toNat ≤ 0xFFF) ∧
    ({ start conf 0xFFE [] with pc := 0xFFE#16 } : State).i.setWidth 16 = 0xFFE#16 ∧
    (start conf 0xFFE []).i.toNat + (0x1#4).toNat ≤ 0xFFF := by decide

theorem witness_KeySkips : (0x3#4).toNat = ((start conf 0 [(1, 0x13)]).readV 1).toNat % 16 := by decide

theorem witness_SoundTimer : ∃ t, step (start conf 0 []) = .next t := ⟨_, rfl⟩

/-- Draws that end inside memory and that leave it. -/
theorem witness_Draw : ¬RunLeavesMemory (start conf 0xFF1 []) (0xF#4).toNat ∧
    RunLeavesMemory (start conf 0xFF2 []) (0xF#4).toNat := by unfold RunLeavesMemory; decide

/-- Lit sprite bits at the corners of the grid: the last column and the last row. -/
theorem witness_Draw_lit : SpriteLit (canvas [(1, 62)]) 1 2 1 0 63 ∧ SpriteLit (canvas [(2, 31)]) 1 2 2 31 0 := by
  unfold SpriteLit; decide

/-- A first draw on a clear display, and a state whose display, sprite and coordinates are those it left. -/
theorem witness_DrawingTwice : ∃ t, exec (.draw 1 2 1) (canvas []) = .next t ∧ ¬RunLeavesMemory (canvas []) (0x1#4).toNat ∧
    t.i = (canvas []).i ∧ t.mem = (canvas []).mem ∧ t.cfg = (canvas []).cfg ∧ t.readV 1 = (canvas []).readV 1 ∧
    t.readV 2 = (canvas []).readV 2 ∧ SpriteLit (canvas []) 1 2 1 0 0 :=
  ⟨_, rfl, by unfold RunLeavesMemory; decide, by decide, by decide, by decide, by decide, by decide,
    by unfold SpriteLit; decide⟩

theorem witness_DrawingTwice_clear (r c : Nat) : getPixel (canvas []).fb r c = false := by
  unfold getPixel; split
  · simp [canvas, start, State.resetWith]
  · rfl

theorem witness_OnlyClearAndDraw : ∃ t, exec (.jump 0x300) (start conf 0 []) = .next t ∧
    Instr.jump 0x300 ≠ .clearScreen ∧ (∀ x y n, Instr.jump 0x300 ≠ .draw x y n) ∧
    command .timerTick (start conf 0 []) = .next ⟨.ok, (start conf 0 []).timerTick⟩ :=
  ⟨_, rfl, by decide, fun _ _ _ => Instr.noConfusion, rfl⟩

/-- The longest image that fits, and one byte more. -/
theorem witness_Load : (start conf 0 []).memWf = true ∧ (List.replicate 3584 (0x12#8)).length ≤ 3584 ∧
    3584 < (List.replicate 3585 (0x12#8)).length ∧ ((0xFFF#12).toNat < 0x200 ∨ 0x200 + [0x12#8].length ≤ (0xFFF#12).toNat) :=
  ⟨by decide, by rw [List.length_replicate], by rw [List.length_replicate]; decide, by decide⟩

theorem witness_Configuration : (∃ t, exec (.jump 0x300) (start conf 0 []) = .next t) ∧
    ∃ q, command .reset (start conf 0 []) = .next q := ⟨⟨_, rfl⟩, ⟨_, rfl⟩⟩

theorem witness_Writers_stack_and_index :
    (∃ t, exec (.call 0x300) (start conf 0 []) = .next t ∧ t.stack ≠ (start conf 0 []).stack) ∧
    ∃ t, exec (.fontAddress 0) (start conf 0 []) = .next t ∧ t.i ≠ (start conf 0 []).i :=
  ⟨⟨_, rfl, by decide⟩, ⟨_, rfl, by decide⟩⟩

theorem witness_Writers_registers_and_pc :
    (∃ t, exec (.addIndex 1) (start conf 0xFFF [(1, 1)]) = .next t ∧ t.readV 0xF ≠ (start conf 0xFFF [(1, 1)]).readV 0xF) ∧
    ∃ t, exec .ret (start conf 0 []) = .next t ∧ t.pc ≠ (start conf 0 []).pc ∧ t.fault ≠ (start conf 0 []).fault :=
  ⟨⟨_, rfl, by decide⟩, ⟨_, rfl, by decide, by decide⟩⟩

theorem witness_Writers_framebuffer : ∃ t, exec .clearScreen { start conf 0 [] with fb := setPixel (start conf 0 []).fb 0 0 true } =
    .next t ∧ t.fb ≠ setPixel (start conf 0 []).fb 0 0 true :=
  ⟨_, rfl, fun h => absurd (congrArg (fun fb => getPixel fb 0 0) h) (by decide)⟩

theorem witness_Writers_timers :
    (∃ t, exec (.setDelay 1) (start conf 0 [(1, 5)]) = .next t ∧ t.dt ≠ (start conf 0 [(1, 5)]).dt) ∧
    ∃ t, exec (.setSound 1) (start conf 0 [(1, 5)]) = .next t ∧ t.st ≠ (start conf 0 [(1, 5)]).st :=
  ⟨⟨_, rfl, by decide⟩, ⟨_, rfl, by decide⟩⟩

theorem witness_Writers_memory : ∃ t, exec (.storeRegisters 0) (start conf 0xFFF [(0, 5)]) = .next t ∧
    t.memRead 0xFFF ≠ (start conf 0xFFF [(0, 5)]).memRead 0xFFF := ⟨_, rfl, by decide⟩

theorem witness_Writers_samples : ∃ t, exec (.random 0 0) (start conf 0 []) = .next t ∧
    t.samples ≠ (start conf 0 []).samples := ⟨_, rfl, by simp [randomWith, State.sampled, State.writeV]⟩

/-- A state that meets the invariant at its bounds: a full stack, the highest `pc` and return address, a record held. -/
def edge : State :=
  { start conf 0xFFF [] with
    stack := List.replicate 16 0x1000#16
    pc := 0x10FE#16
    mem := [(0x000, 0x01#8), (0x050, 0x00#8), (0xFFF, 0x01#8)]
    fault := some ⟨.fetchOutOfRange, 0x10FE#16, none, none⟩ }

theorem edge_record (r : FaultRecord) (h : edge.fault = some r) : r.wellFormed = true ∧ r.pc = edge.pc := by
  have e : edge.fault = some ⟨.fetchOutOfRange, 0x10FE#16, none, none⟩ := by decide
  rw [e] at h
  cases h
  decide

theorem witness_Invariant_edge : Inv edge :=
  ⟨by decide, by decide, by decide, fun a h => by rw [List.eq_of_mem_replicate h]; decide, edge_record⟩

theorem start_record (r : FaultRecord) (h : (start conf 0 []).fault = some r) :
    r.wellFormed = true ∧ r.pc = (start conf 0 []).pc := by
  have e : (start conf 0 []).fault = none := by decide
  rw [e] at h
  cases h

theorem witness_Invariant_start : Inv (start conf 0 []) :=
  ⟨by decide, by decide, by decide, fun _ h => absurd h List.not_mem_nil, start_record⟩

theorem witness_InvariantStep : Inv (start conf 0 []) ∧ ∃ t, step (start conf 0 []) = .next t :=
  ⟨witness_Invariant_start, ⟨_, rfl⟩⟩

/-- A jump to itself at 0x20C, as program P1 of Part L3 ends. -/
theorem witness_FixedLoop : atFixedLoop { start conf 0 [] with pc := 0x20C#16, mem := [(0x20C, 0x12#8), (0x20D, 0x0C#8)] } :=
  ⟨rfl, 0x20C#12, by decide, by decide⟩

theorem witness_FaultStop : atFaultStop stopped := by unfold atFaultStop; decide

theorem witness_PlacedWord : edge.memWf = true ∧ (Instr.storeBcd 0xF).wellFormed edge.cfg.rndPresent = true ∧
    0xFFF < edge.pc.toNat + 1 ∧ atTheEnd.memWf = true ∧ atTheEnd.pc.toNat + 1 ≤ 0xFFF ∧
    (0xFFD#12).toNat ≠ atTheEnd.fetchAddress.toNat ∧ (0xFFD#12).toNat ≠ atTheEnd.fetchAddress.toNat + 1 := by decide

end Sys2Proof.Tests
end

section
/-! PROOFS. The read-out (rule R33) and the reset table (rule R39) of 10_state.md. -/

namespace Sys2Proof.Machine

/-! ## The read-out -/

/-- Row by row, the read-out lists a coordinate exactly when it is in the grid and its pixel is set. -/
theorem State.mem_readOut (s : State) (r c : Nat) :
    (r, c) ∈ s.readOut ↔ r < 32 ∧ c < 64 ∧ getPixel s.fb r c = true := by
  constructor
  · intro listed
    obtain ⟨r', hr, inRow⟩ := List.mem_flatMap.1 listed
    obtain ⟨c', lit, same⟩ := List.mem_map.1 inRow
    obtain ⟨hc, pixel⟩ := List.mem_filter.1 lit
    cases same
    exact ⟨List.mem_range.1 hr, List.mem_range.1 hc, pixel⟩
  · rintro ⟨hr, hc, pixel⟩
    have lit : c ∈ (List.range 64).filter fun c => getPixel s.fb r c :=
      List.mem_filter.2 ⟨List.mem_range.2 hc, pixel⟩
    exact List.mem_flatMap.2 ⟨r, List.mem_range.2 hr, List.mem_map_of_mem lit⟩

/-! ## Reset contents -/

/-- The unlisted bytes from the font base on are the font's, and zero after its end. -/
theorem resetByte_of_fontBase_le (f : Font) {a : Nat} (h : 0x050 ≤ a) :
    resetByte f a = f.toList.getD (a - 0x050) 0x00#8 := if_pos h

/-- Outside the 80 bytes of the font an unlisted address reads as zero (rule R39). -/
theorem resetByte_outside_font (f : Font) {a : Nat} (h : a < 0x050 ∨ 0x09F < a) : resetByte f a = 0x00#8 := by
  rcases h with below | above
  · exact if_neg (Nat.not_le.2 below)
  · have past : f.toList.length ≤ a - 0x050 := by rw [Vector.length_toList]; omega
    rw [resetByte_of_fontBase_le f (by omega)]
    exact List.getD_eq_default _ _ past

section
variable (cfg : Params) (samples : Nat)

@[simp] theorem State.resetWith_cfg : (State.resetWith cfg samples).cfg = cfg := rfl

@[simp] theorem State.memRead_resetWith (a : Addr) :
    (State.resetWith cfg samples).memRead a = resetByte cfg.fontData a.toNat := rfl

@[simp] theorem State.readV_resetWith (x : Nibble) : (State.resetWith cfg samples).readV x = 0x00#8 :=
  Vector.getElem_replicate x.isLt

/-- The table of rule R39, under every configuration. -/
theorem isReset_resetWith : IsReset (State.resetWith cfg samples) where
  registers := State.readV_resetWith cfg samples
  index := rfl
  pc := rfl
  stack := rfl
  timers := ⟨rfl, rfl⟩
  pixels := getPixel_clear
  fault := rfl
  font _ hlo _ := resetByte_of_fontBase_le cfg.fontData hlo
  rest _ hout := resetByte_outside_font cfg.fontData hout

end

theorem command_reset (s : State) : command .reset s = .next ⟨.ok, s.hostReset⟩ := rfl

/-! ## The obligations -/

/-- Settles O43: the read-out's membership, for every coordinate. -/
theorem readOutIsTheSetPixels : Obligations.ReadOutIsTheSetPixels := State.mem_readOut

/-- Settles O46: `State.reset` and the `reset` command both give `State.resetWith` of their configuration. -/
theorem resetGivesTheTableOfResetValues : Obligations.ResetGivesTheTableOfResetValues :=
  ⟨isReset_resetWith thisHardware 0, State.resetWith_cfg thisHardware 0, fun s =>
    ⟨s.hostReset, command_reset s, isReset_resetWith s.cfg s.samples, s.hostReset_cfg⟩⟩

end Sys2Proof.Machine
end


section
/-! PROOFS. The fetch of 20_memory.md (rule R51). -/

namespace Sys2Proof.Machine

section
variable (s : State)

/-- The high byte of a fetched word is the one at the lower address, at any alignment. -/
theorem State.exists_fetch16_bigEndian {a : Word} (inMemory : a.toNat + 1 ≤ 0xFFF) :
    ∃ w, s.fetch16 a = some w ∧ w.toNat = (s.byteAt a.toNat).toNat * 256 + (s.byteAt (a.toNat + 1)).toNat :=
  ⟨_, s.fetch16_of_le inMemory, toNat_wordOfBytes _ _⟩

theorem raises_raiseAt (ipc : Word) (code : FaultCode) (word : Option Word) (info : Option DataInfo) :
    Raises s (s.raiseAt ipc code word info) code ipc word info := rfl

end

/-- A failed fetch ends the cycle before anything is decoded (rules R51, R90). -/
theorem step_of_fetch16_eq_none {s : State} (noFault : s.fault = none) (noWord : s.fetch16 s.pc = none) :
    step s = .next (s.raiseAt s.pc .fetchOutOfRange none none) := by
  simp only [step, cpuTick, noFault, cycle, noWord]

/-- Settles O6: the two bytes in memory make the word, and where one of them is past the end the fetch has none. -/
theorem fetchReadsBigEndianAndNeverWraps : Obligations.FetchReadsBigEndianAndNeverWraps := by
  intro s
  constructor
  · intro a inMemory
    exact s.exists_fetch16_bigEndian inMemory
  · intro noFault outside
    have noWord : s.fetch16 s.pc = none := (s.fetch16_eq_none s.pc).2 outside
    exact ⟨_, step_of_fetch16_eq_none noFault noWord, raises_raiseAt s _ _ _ _⟩

end Sys2Proof.Machine
end

section
/-! PROOFS. The decoder and the opcode table (rules R75 to R81 of 30_encoding.md). -/

namespace Sys2Proof

section
variable {w m p : Word} {c n : Nibble} {kk : Byte}

/-! ## A word packed again from the fields the dispatch fixes -/

theorem packAddr_of_class (hc : fieldClass w = c) : packAddr c (fieldNnn w) = w := by
  rw [← hc, packAddr_fields]

theorem packByte_of_class (hc : fieldClass w = c) : packByte c (fieldX w) (fieldKk w) = w := by
  rw [← hc, packByte_fields]

theorem packByte_of_class_kk (hc : fieldClass w = c) (hkk : fieldKk w = kk) : packByte c (fieldX w) kk = w := by
  rw [← hkk, packByte_of_class hc]

theorem packRegs_of_class (hc : fieldClass w = c) : packRegs c (fieldX w) (fieldY w) (fieldN w) = w := by
  rw [← hc, packRegs_fields]

theorem packRegs_of_class_n (hc : fieldClass w = c) (hn : fieldN w = n) :
    packRegs c (fieldX w) (fieldY w) n = w := by
  rw [← hn, packRegs_of_class hc]

/-! ## The fields a mask keeps: where the mask has all ones, a matching word has the pattern's field -/

theorem fieldClass_of_match (ones : fieldClass m = 0xF#4) (h : w &&& m = p) : fieldClass w = fieldClass p := by
  rw [← h, fieldClass, fieldClass, BitVec.extractLsb'_and, ← fieldClass, ← fieldClass, ones, nibble_and_ones]

theorem fieldN_of_match (ones : fieldN m = 0xF#4) (h : w &&& m = p) : fieldN w = fieldN p := by
  rw [← h, fieldN, fieldN, BitVec.extractLsb'_and, ← fieldN, ← fieldN, ones, nibble_and_ones]

theorem fieldKk_of_match (ones : fieldKk m = 0xFF#8) (h : w &&& m = p) : fieldKk w = fieldKk p := by
  rw [← h, fieldKk, fieldKk, BitVec.extractLsb'_and, ← fieldKk, ← fieldKk, ones, byte_and_ones]

end

/-! ## What a decoded word is -/

section
variable {rnd : Bool} {w : Word} {i : Instr}

theorem encode_eq_and_wellFormed_of_decodeClass0 (h : decodeClass0 w = some i) :
    encode i = w ∧ i.wellFormed rnd = true := by
  unfold decodeClass0 at h
  split at h
  next hw => cases h; exact ⟨hw.symm, rfl⟩
  split at h
  next hw => cases h; exact ⟨hw.symm, rfl⟩
  next => cases h

theorem encode_eq_and_wellFormed_of_decodeClass8 (hc : fieldClass w = 0x8#4) (h : decodeClass8 w = some i) :
    encode i = w ∧ i.wellFormed rnd = true := by
  unfold decodeClass8 at h
  split at h
  case h_10 => cases h
  all_goals next hn => cases h; exact ⟨packRegs_of_class_n hc hn, rfl⟩

theorem encode_eq_and_wellFormed_of_decodeClassE (hc : fieldClass w = 0xE#4) (h : decodeClassE w = some i) :
    encode i = w ∧ i.wellFormed rnd = true := by
  unfold decodeClassE at h
  split at h
  case h_3 => cases h
  all_goals next hkk => cases h; exact ⟨packByte_of_class_kk hc hkk, rfl⟩

theorem encode_eq_and_wellFormed_of_decodeClassF (hc : fieldClass w = 0xF#4) (h : decodeClassF w = some i) :
    encode i = w ∧ i.wellFormed rnd = true := by
  unfold decodeClassF at h
  split at h
  case h_10 => cases h
  all_goals next hkk => cases h; exact ⟨packByte_of_class_kk hc hkk, rfl⟩

/-- The decoder loses no bit of the word, and answers only instructions of its machine. The alternatives `h_1` to
`h_16` are the classes 0 to F. -/
theorem encode_eq_and_wellFormed_of_decode (h : decode rnd w = some i) : encode i = w ∧ i.wellFormed rnd = true := by
  unfold decode at h
  split at h
  case h_1 => exact encode_eq_and_wellFormed_of_decodeClass0 h
  case h_9 hc => exact encode_eq_and_wellFormed_of_decodeClass8 hc h
  case h_15 hc => exact encode_eq_and_wellFormed_of_decodeClassE hc h
  case h_16 hc => exact encode_eq_and_wellFormed_of_decodeClassF hc h
  case h_17 => cases h
  case h_2 hc | h_3 hc | h_11 hc | h_12 hc => cases h; exact ⟨packAddr_of_class hc, rfl⟩
  case h_4 hc | h_5 hc | h_7 hc | h_8 hc => cases h; exact ⟨packByte_of_class hc, rfl⟩
  case h_14 hc => cases h; exact ⟨packRegs_of_class hc, rfl⟩
  case h_6 hc | h_10 hc =>
    split at h
    next hn => cases h; exact ⟨packRegs_of_class_n hc hn, rfl⟩
    next => cases h
  case h_13 hc =>
    split at h
    next present => cases h; exact ⟨packByte_of_class hc, present⟩
    next => cases h

end

/-! ## The rows of the table are the instructions' rows -/

namespace Laws.TableMatch

theorem all : ∀ i : Instr, Statement i
  | .clearScreen => clearScreen
  | .ret => ret
  | .jump nnn => jump nnn
  | .call nnn => call nnn
  | .skipEqLiteral x kk => skipEqLiteral x kk
  | .skipNeLiteral x kk => skipNeLiteral x kk
  | .skipEqReg x y => skipEqReg x y
  | .loadLiteral x kk => loadLiteral x kk
  | .addLiteral x kk => addLiteral x kk
  | .move x y => move x y
  | .or x y => or x y
  | .and x y => and x y
  | .xor x y => xor x y
  | .add x y => add x y
  | .sub x y => sub x y
  | .shiftRight x y => shiftRight x y
  | .subReverse x y => subReverse x y
  | .shiftLeft x y => shiftLeft x y
  | .skipNeReg x y => skipNeReg x y
  | .loadIndex nnn => loadIndex nnn
  | .jumpOffset nnn => jumpOffset nnn
  | .random x kk => random x kk
  | .draw x y n => draw x y n
  | .skipKeyPressed x => skipKeyPressed x
  | .skipKeyNotPressed x => skipKeyNotPressed x
  | .loadDelay x => loadDelay x
  | .waitKey x => waitKey x
  | .setDelay x => setDelay x
  | .setSound x => setSound x
  | .addIndex x => addIndex x
  | .fontAddress x => fontAddress x
  | .storeBcd x => storeBcd x
  | .storeRegisters x => storeRegisters x
  | .loadRegisters x => loadRegisters x

end Laws.TableMatch

theorem tableRow_mem_opcodeTable (i : Instr) : tableRow i ∈ opcodeTable := (Laws.TableMatch.all i).1

theorem encode_matches_tableRow (i : Instr) : encode i &&& (tableRow i).mask = (tableRow i).pattern :=
  (Laws.TableMatch.all i).2

theorem exists_tableRow_eq : ∀ r ∈ opcodeTable, ∃ i, tableRow i = r := by
  simp only [opcodeTable, List.forall_mem_append, List.forall_mem_cons, List.not_mem_nil, false_imp_iff, implies_true,
    exists_apply_eq_apply, and_self]

/-- Every row fixes the class. -/
theorem fieldClass_mask (i : Instr) : fieldClass (tableRow i).mask = 0xF#4 := by
  cases i <;> simp only [tableRow] <;> rfl

/-- Only the row of class C depends on `RND_PRESENT` (rule R78). -/
theorem wellFormed_iff_tableRow (rnd : Bool) (i : Instr) :
    i.wellFormed rnd = true ↔ (rnd = false → tableRow i ≠ tableRow (.random 0 0)) := by
  cases i <;> simp [Instr.wellFormed, tableRow]

/-! ## A word that matches a row decodes -/

section
variable {rnd : Bool} {w : Word}

/-- Whatever the word's operand bits are, the bits the row fixes lead the dispatch to an instruction: the class alone
(rules R74, R78), the class and the low nibble (R77, R79), the class and the low byte (R80, R81) or the whole word
(R76). -/
theorem isSome_decode_of_match (i : Instr) (wf : i.wellFormed rnd = true)
    (h : w &&& (tableRow i).mask = (tableRow i).pattern) : (decode rnd w).isSome = true := by
  have hc := fieldClass_of_match (fieldClass_mask i) h
  cases i <;> simp only [tableRow] at h hc
  case clearScreen | ret =>
    obtain rfl : w = _ := BitVec.and_allOnes.symm.trans h
    rfl
  case jump | call | skipEqLiteral | skipNeLiteral | loadLiteral | addLiteral | loadIndex | jumpOffset | draw =>
    rw [decode, hc]
    rfl
  case random =>
    have present : rnd = true := wf
    rw [decode, hc, present]
    rfl
  case skipEqReg | skipNeReg =>
    rw [decode, hc, fieldN_of_match rfl h]
    rfl
  case move | or | and | xor | add | sub | shiftRight | subReverse | shiftLeft =>
    rw [decode, decodeClass8, hc, fieldN_of_match rfl h]
    rfl
  case skipKeyPressed | skipKeyNotPressed =>
    rw [decode, decodeClassE, hc, fieldKk_of_match rfl h]
    rfl
  case loadDelay | waitKey | setDelay | setSound | addIndex | fontAddress | storeBcd | storeRegisters | loadRegisters =>
    rw [decode, decodeClassF, hc, fieldKk_of_match rfl h]
    rfl

theorem matches_tableRow_of_decode {i : Instr} (h : decode rnd w = some i) :
    w &&& (tableRow i).mask = (tableRow i).pattern := by
  rw [← (encode_eq_and_wellFormed_of_decode h).1, encode_matches_tableRow]

end

/-! ## The obligation -/

/-- Settles O3: a decoded word is its instruction's encoding, so it matches that instruction's row; and the bits a row
fixes are all that the dispatch reads. -/
theorem decoderAcceptsExactlyTheTable : Obligations.DecoderAcceptsExactlyTheTable := by
  intro rnd w
  refine ⟨⟨?_, ?_⟩, fun i => matches_tableRow_of_decode⟩
  · intro accepted
    obtain ⟨i, h⟩ := Option.isSome_iff_exists.1 accepted
    have present := (wellFormed_iff_tableRow rnd i).1 (encode_eq_and_wellFormed_of_decode h).2
    exact ⟨tableRow i, tableRow_mem_opcodeTable i, matches_tableRow_of_decode h, present⟩
  · rintro ⟨r, listed, matching, present⟩
    obtain ⟨i, rfl⟩ := exists_tableRow_eq r listed
    exact isSome_decode_of_match i ((wellFormed_iff_tableRow rnd i).2 present) matching

end Sys2Proof
end

section
/-! PROOFS. The control-transfer instructions (rules R101 to R109 of 40_control_flow.md). -/

namespace Sys2Proof.Machine

/-! ## The operand forms: the skip (rule R101) and the target of a jump with offset (rule R109) -/

section
variable (s : State) (p : Prop) [Decidable p]

theorem State.skipIf_decide : s.skipIf (decide p) = { s with pc := if p then s.pc + 2 else s.pc } := by
  simp only [State.skipIf, State.setPc, decide_eq_true_eq]

theorem State.skipIf_decide_not : s.skipIf (decide ¬p) = { s with pc := if p then s.pc else s.pc + 2 } := by
  rw [State.skipIf_decide, ite_not]

end

section
variable {s : State}

theorem State.jumpRegister_of_v0 (nnn : Addr) (quirk : s.cfg.jumpQuirk = .v0) : s.jumpRegister nnn = 0x0#4 := by
  simp only [State.jumpRegister, quirk]

theorem State.jumpRegister_of_vx (nnn : Addr) (quirk : s.cfg.jumpQuirk = .vx) :
    s.jumpRegister nnn = BitVec.ofNat 4 (nnn.toNat / 256) := by
  have topNibble : nnn.extractLsb' 8 4 = BitVec.ofNat 4 (nnn.toNat / 256) :=
    congrArg (BitVec.ofNat 4) (Nat.shiftRight_eq_div_pow nnn.toNat 8)
  simp only [State.jumpRegister, quirk, topNibble]

end

/-- A 12-bit address and a byte add up to less than 2^16, so the 16-bit sum is exact (D23). -/
theorem State.toNat_jumpOffsetTarget (s : State) (nnn : Addr) :
    (s.jumpOffsetTarget nnn).toNat = nnn.toNat + (s.readV (s.jumpRegister nnn)).toNat := by
  have addr := nnn.isLt
  have byte := (s.readV (s.jumpRegister nnn)).isLt
  rw [State.jumpOffsetTarget, BitVec.toNat_add, BitVec.toNat_setWidth_of_le (by decide),
    BitVec.toNat_setWidth_of_le (by decide)]
  omega

/-! ## What each instruction does -/

section
variable {s : State}

theorem exec_call_of_room (nnn : Addr) (room : s.cfg.stackDepth ≠ some s.stack.length) :
    exec (.call nnn) s = .next ((s.push s.pc).setPc (nnn.setWidth 16)) := by
  have notFull : s.stackFull = false := decide_eq_false room
  simp only [exec, execCall, notFull, Bool.false_eq_true, if_false]

theorem exec_call_of_full (nnn : Addr) (full : s.cfg.stackDepth = some s.stack.length) :
    exec (.call nnn) s = .next (s.raise .stackOverflow (.call nnn) none) := by
  have isFull : s.stackFull = true := decide_eq_true full
  simp only [exec, execCall, isFull, if_true]

theorem exec_ret_of_stack_eq_append {below : List Word} {target : Word} (pushed : s.stack = below ++ [target]) :
    exec .ret s = .next { s with stack := below, pc := target } := by
  have top : s.top = some target := by rw [State.top, pushed, List.getLast?_concat]
  have rest : s.dropTop = { s with stack := below } := by rw [State.dropTop, pushed, List.dropLast_concat]
  simp only [exec, execRet, top, rest, State.setPc]

theorem exec_ret_of_stack_eq_nil (empty : s.stack = []) :
    exec .ret s = .next (s.raise .stackUnderflow .ret none) := by
  have noTop : s.top = none := by rw [State.top, empty, List.getLast?_nil]
  simp only [exec, execRet, noTop]

end

section
variable (x y : Nibble) (kk : Byte) (nnn : Addr) (s : State)

theorem exec_jump : exec (.jump nnn) s = .next (s.setPc (nnn.setWidth 16)) := rfl

theorem exec_jumpOffset : exec (.jumpOffset nnn) s = .next (s.setPc (s.jumpOffsetTarget nnn)) := rfl

theorem exec_skipEqLiteral : exec (.skipEqLiteral x kk) s = .next (s.skipIf (decide (s.readV x = kk))) := rfl

theorem exec_skipNeLiteral : exec (.skipNeLiteral x kk) s = .next (s.skipIf (decide ¬s.readV x = kk)) := rfl

theorem exec_skipEqReg : exec (.skipEqReg x y) s = .next (s.skipIf (decide (s.readV x = s.readV y))) := rfl

theorem exec_skipNeReg : exec (.skipNeReg x y) s = .next (s.skipIf (decide ¬s.readV x = s.readV y)) := rfl

end

/-! ## The obligations -/

/-- Settles O11: the 12-bit address fits the 16-bit `pc`. -/
theorem jumpSetsPc : Obligations.JumpSetsPc := by
  intro nnn s
  have fits : (nnn.setWidth 16).toNat = nnn.toNat := BitVec.toNat_setWidth_of_le (by decide)
  exact ⟨_, exec_jump nnn s, fits, rfl⟩

/-- Settles O12: the two sides of the full-stack test. -/
theorem callPushesAndJumps : Obligations.CallPushesAndJumps := by
  intro nnn s
  constructor
  · exact exec_call_of_room nnn
  · intro full
    exact ⟨_, exec_call_of_full nnn full, s.raise_raises _ _ _⟩

/-- Settles O13: the stack has a top exactly when something was pushed last. -/
theorem returnPopsAndJumps : Obligations.ReturnPopsAndJumps := by
  intro s
  constructor
  · intro below target pushed
    exact exec_ret_of_stack_eq_append pushed
  · intro empty
    exact ⟨_, exec_ret_of_stack_eq_nil empty, s.raise_raises _ _ _⟩

/-- Settles O15: both are the one skip, on opposite conditions. -/
theorem literalSkips : Obligations.LiteralSkips := by
  intro x kk s
  rw [exec_skipEqLiteral, exec_skipNeLiteral, State.skipIf_decide, State.skipIf_decide_not]
  exact ⟨rfl, rfl⟩

/-- Settles O16: both are the one skip, on opposite conditions. -/
theorem registerSkips : Obligations.RegisterSkips := by
  intro x y s
  rw [exec_skipEqReg, exec_skipNeReg, State.skipIf_decide, State.skipIf_decide_not]
  exact ⟨rfl, rfl⟩

/-- Settles O17: the target is the exact sum, with the register of each `JUMP_QUIRK`. -/
theorem jumpOffsetAddsTheChosenRegister : Obligations.JumpOffsetAddsTheChosenRegister := by
  intro nnn s
  have exactSum := s.toNat_jumpOffsetTarget nnn
  refine ⟨_, exec_jumpOffset nnn s, rfl, ?_, ?_⟩ <;> intro quirk
  · rwa [State.jumpRegister_of_v0 nnn quirk] at exactSum
  · rwa [State.jumpRegister_of_vx nnn quirk] at exactSum

end Sys2Proof.Machine
end

section
/-! PROOFS. The register and ALU instructions (rules R121 to R136 of 41_register_alu.md). -/

namespace Sys2Proof.Machine

/-! ## The ALU laws: results and flags as arithmetic on bytes (rule R130) -/

section
variable (a b : Byte)

theorem carryFlag_iff : carryFlag a b = true ↔ 255 < a.toNat + b.toNat := decide_eq_true_iff

theorem notBorrowFlag_iff : notBorrowFlag a b = true ↔ b.toNat ≤ a.toNat := decide_eq_true_iff

/-- The bit a right shift moves out is the remainder by 2. -/
theorem shiftRightFlag_iff : shiftRightFlag a = true ↔ a.toNat % 2 = 1 := by
  rw [shiftRightFlag, BitVec.getLsbD, Nat.testBit_zero, decide_eq_true_iff]

/-- The bit a left shift moves out is the one of weight 128. -/
theorem shiftLeftFlag_iff : shiftLeftFlag a = true ↔ 128 ≤ a.toNat := by
  have topBit : a.getLsbD 7 = decide (2 ^ 7 ≤ a.toNat) := a.getLsbD_last
  rw [shiftLeftFlag, topBit, decide_eq_true_iff]
  rfl

theorem toNat_sub_byte : (a - b).toNat = (a.toNat + 256 - b.toNat) % 256 := by
  rw [BitVec.toNat_sub]
  omega

theorem toNat_ushiftRight_one : (a >>> 1).toNat = a.toNat / 2 := Nat.shiftRight_one a.toNat

theorem toNat_shiftLeft_one : (a <<< 1).toNat = a.toNat * 2 % 256 := by
  rw [BitVec.toNat_shiftLeft, Nat.shiftLeft_eq]

end

/-! ## The shift source (rule R132) -/

theorem State.shiftSource_eq {s : State} {x y : Nibble} {src : Byte}
    (source : (s.cfg.shiftQuirk = .inPlace ∧ src = s.readV x) ∨ (s.cfg.shiftQuirk = .fromVy ∧ src = s.readV y)) :
    s.shiftSource x y = src := by
  rcases source with ⟨quirk, rfl⟩ | ⟨quirk, rfl⟩ <;> simp only [State.shiftSource, quirk]

/-! ## What each instruction does -/

section
variable (x y : Nibble) (kk : Byte) (s : State)

theorem exec_loadLiteral : exec (.loadLiteral x kk) s = .next (s.writeV x kk) := rfl

theorem exec_addLiteral : exec (.addLiteral x kk) s = .next (s.writeV x (s.readV x + kk)) := rfl

theorem exec_move : exec (.move x y) s = .next (s.writeV x (s.readV y)) := rfl

theorem exec_or : exec (.or x y) s = .next (s.writeV x (s.readV x ||| s.readV y)) := rfl

theorem exec_and : exec (.and x y) s = .next (s.writeV x (s.readV x &&& s.readV y)) := rfl

theorem exec_xor : exec (.xor x y) s = .next (s.writeV x (s.readV x ^^^ s.readV y)) := rfl

theorem exec_add : exec (.add x y) s =
    .next (s.writeWithFlag x (s.readV x + s.readV y) (carryFlag (s.readV x) (s.readV y))) := rfl

theorem exec_sub : exec (.sub x y) s =
    .next (s.writeWithFlag x (s.readV x - s.readV y) (notBorrowFlag (s.readV x) (s.readV y))) := rfl

theorem exec_subReverse : exec (.subReverse x y) s =
    .next (s.writeWithFlag x (s.readV y - s.readV x) (notBorrowFlag (s.readV y) (s.readV x))) := rfl

theorem exec_shiftRight : exec (.shiftRight x y) s =
    .next (s.writeWithFlag x (s.shiftSource x y >>> 1) (shiftRightFlag (s.shiftSource x y))) := rfl

theorem exec_shiftLeft : exec (.shiftLeft x y) s =
    .next (s.writeWithFlag x (s.shiftSource x y <<< 1) (shiftLeftFlag (s.shiftSource x y))) := rfl

end

/-! ## The obligations -/

/-- Settles O18: each is one plain register write. -/
theorem loadLiteralAndMove : Obligations.LoadLiteralAndMove := by
  intro x y kk s
  constructor
  · exact ⟨_, exec_loadLiteral x kk s, s.writeV_onlyWritesV x kk⟩
  · exact ⟨_, exec_move x y s, s.writeV_onlyWritesV x (s.readV y)⟩

/-- Settles O19: a plain register write of the 8-bit sum, which wraps by its width. -/
theorem addLiteralWrapsWithoutFlag : Obligations.AddLiteralWrapsWithoutFlag := by
  intro x kk s
  exact ⟨_, _, exec_addLiteral x kk s, BitVec.toNat_add _ _, s.writeV_onlyWritesV x _⟩

/-- Settles O20: a plain register write of each bitwise combination. -/
theorem logicActsBitwiseWithoutFlag : Obligations.LogicActsBitwiseWithoutFlag := by
  intro x y s
  refine ⟨?_, ?_, ?_⟩
  · exact ⟨_, _, exec_or x y s, s.writeV_onlyWritesV x _, fun _ => BitVec.getLsbD_or⟩
  · exact ⟨_, _, exec_and x y s, s.writeV_onlyWritesV x _, fun _ => BitVec.getLsbD_and⟩
  · exact ⟨_, _, exec_xor x y s, s.writeV_onlyWritesV x _, fun _ => BitVec.getLsbD_xor⟩

/-- Settles O21: the write with flag of the 8-bit sum and the carry, both of the operands before any write. -/
theorem addWritesSumAndCarry : Obligations.AddWritesSumAndCarry := by
  intro x y s
  exact ⟨_, _, _, exec_add x y s, BitVec.toNat_add _ _, carryFlag_iff _ _, s.writeWithFlag_onlyWrites x _ _⟩

/-- Settles O22: the two are one subtraction law, with the operands exchanged. -/
theorem subtractsWriteDifferenceAndNotBorrow : Obligations.SubtractsWriteDifferenceAndNotBorrow := by
  intro x y s
  constructor
  · exact ⟨_, _, _, exec_sub x y s, toNat_sub_byte _ _, notBorrowFlag_iff _ _, s.writeWithFlag_onlyWrites x _ _⟩
  · exact ⟨_, _, _, exec_subReverse x y s, toNat_sub_byte _ _, notBorrowFlag_iff _ _,
      s.writeWithFlag_onlyWrites x _ _⟩

/-- Settles O23: under either `SHIFT_QUIRK` the byte shifted is `State.shiftSource`, and the destination is `V[x]`. -/
theorem shiftsMoveOneBit : Obligations.ShiftsMoveOneBit := by
  intro x y s src source
  obtain rfl := State.shiftSource_eq source
  constructor
  · exact ⟨_, _, _, exec_shiftRight x y s, toNat_ushiftRight_one _, shiftRightFlag_iff _,
      s.writeWithFlag_onlyWrites x _ _⟩
  · exact ⟨_, _, _, exec_shiftLeft x y s, toNat_shiftLeft_one _, shiftLeftFlag_iff _,
      s.writeWithFlag_onlyWrites x _ _⟩

end Sys2Proof.Machine
end

section
/-! PROOFS. The index-register and memory instructions (rules R150 to R156 of 42_index_memory.md). -/

namespace Sys2Proof.Machine

/-! ## The glyph address (rule R153) and the decimal digits (rule R154) -/

/-- A glyph size below 256 keeps every glyph address inside memory, so the 12-bit address is exact. -/
theorem State.toNat_fontAddr (s : State) (b : Byte) :
    (s.fontAddr b).toNat = 0x050 + s.cfg.fontGlyphBytes.val * (b.toNat % 16) := by
  have glyphs : s.cfg.fontGlyphBytes.val * (b.toNat % 16) ≤ 255 * 15 := Nat.mul_le_mul (by omega) (by omega)
  rw [State.fontAddr, BitVec.toNat_ofNat, fontBase]
  omega

section
variable (b : Byte)

@[simp] theorem length_bcdDigits : (bcdDigits b).length = 3 := rfl

theorem toNat_bcdDigits_hundreds : ((bcdDigits b).getD 0 0).toNat = b.toNat / 100 :=
  Nat.mod_eq_of_lt (by omega)

theorem toNat_bcdDigits_tens : ((bcdDigits b).getD 1 0).toNat = b.toNat / 10 % 10 :=
  Nat.mod_eq_of_lt (by omega)

theorem toNat_bcdDigits_ones : ((bcdDigits b).getD 2 0).toNat = b.toNat % 10 :=
  Nat.mod_eq_of_lt (by omega)

end

/-! ## The index add (rule R151) -/

theorem indexOverflowFlag_iff (i : Addr) (b : Byte) : indexOverflowFlag i b = true ↔ 0x1000 ≤ i.toNat + b.toNat :=
  decide_eq_true_iff

/-- A 12-bit sum with a byte wraps by its width. -/
theorem toNat_add_setWidth (i : Addr) (b : Byte) : (i + b.setWidth 12).toNat = (i.toNat + b.toNat) % 0x1000 := by
  rw [BitVec.toNat_add, BitVec.toNat_setWidth_of_le (by decide)]

section
variable {s : State} {b : Byte}

theorem State.toNat_indexSum_of_lt (inside : s.i.toNat + b.toNat < 0x1000) :
    (s.indexSum b).toNat = s.i.toNat + b.toNat := by
  have noOverflow : indexOverflowFlag s.i b = false := decide_eq_false (Nat.not_le.2 inside)
  simp only [State.indexSum, noOverflow]
  rw [toNat_add_setWidth, Nat.mod_eq_of_lt inside]

theorem State.toNat_indexSum_of_wrap (wrap : s.cfg.addIOverflow = .wrap) :
    (s.indexSum b).toNat = (s.i.toNat + b.toNat) % 0x1000 := by
  rw [← toNat_add_setWidth, State.indexSum, wrap]
  cases indexOverflowFlag s.i b <;> rfl

theorem State.indexSum_of_saturate (outside : 0x1000 ≤ s.i.toNat + b.toNat)
    (saturate : s.cfg.addIOverflow = .saturate) : s.indexSum b = 0xFFF#12 := by
  simp only [State.indexSum, (indexOverflowFlag_iff s.i b).2 outside, saturate]

theorem State.writeIndexFlag_of_off (off : s.cfg.addIVf = false) (flag : Bool) : s.writeIndexFlag flag = s := by
  simp only [State.writeIndexFlag, off, Bool.false_eq_true, if_false]

theorem State.readV_vf_writeIndexFlag (on : s.cfg.addIVf = true) (flag : Bool) :
    (s.writeIndexFlag flag).readV 0xF#4 = flagByte flag := by
  rw [State.readV_writeIndexFlag, if_pos ⟨on, rfl⟩]

theorem State.readV_writeIndexFlag_of_ne {z : Nibble} (other : z ≠ 0xF#4) (flag : Bool) :
    (s.writeIndexFlag flag).readV z = s.readV z := by
  rw [State.readV_writeIndexFlag, if_neg fun written => other written.2]

end

@[simp] theorem State.readV_setI (s : State) (a : Addr) (z : Nibble) : (s.setI a).readV z = s.readV z := rfl

/-! ## What each instruction does -/

section
variable (x : Nibble) (nnn : Addr) (s : State)

theorem exec_loadIndex : exec (.loadIndex nnn) s = .next (s.setI nnn) := rfl

theorem exec_fontAddress : exec (.fontAddress x) s = .next (s.setI (s.fontAddr (s.readV x))) := rfl

theorem exec_addIndex : exec (.addIndex x) s =
    .next ((s.writeIndexFlag (indexOverflowFlag s.i (s.readV x))).setI (s.indexSum (s.readV x))) := rfl

end

section
variable {s : State} {n : Nat}

theorem State.dataRunRaises_eq_false (stays : ¬RunLeavesMemory s n) : s.dataRunRaises n = false :=
  Bool.eq_false_iff.2 (mt (s.dataRunRaises_iff n).1 stays)

theorem exec_storeBcd_of_stays (x : Nibble) (stays : ¬RunLeavesMemory s 3) :
    exec (.storeBcd x) s = .next (s.writeData (bcdDigits (s.readV x))) := by
  simp only [exec, execStoreBcd, State.dataRunRaises_eq_false stays, Bool.false_eq_true, if_false]

theorem exec_storeRegisters_of_stays {x : Nibble} (stays : ¬RunLeavesMemory s (x.toNat + 1)) :
    exec (.storeRegisters x) s = .next (s.writeData (s.firstRegs (x.toNat + 1))) := by
  simp only [exec, execStoreRegisters, State.dataRunRaises_eq_false stays, Bool.false_eq_true, if_false]

theorem exec_loadRegisters_of_stays {x : Nibble} (stays : ¬RunLeavesMemory s (x.toNat + 1)) :
    exec (.loadRegisters x) s = .next (s.writeRegs 0x0#4 (s.readData (x.toNat + 1))) := by
  simp only [exec, execLoadRegisters, State.dataRunRaises_eq_false stays, Bool.false_eq_true, if_false]

/-- The four instructions with a run raise by the one test, before any byte moves (rules R53, R218). -/
theorem exec_of_runLeavesMemory {i : Instr} (run : dataRunLength i = some n) (leaves : RunLeavesMemory s n) :
    exec i s = .next (s.raiseData i n) := by
  have raised : s.dataRunRaises n = true := (s.dataRunRaises_iff n).2 leaves
  cases i with
  | draw => cases run; simp only [exec, execDraw, raised, if_true]
  | storeBcd => cases run; simp only [exec, execStoreBcd, raised, if_true]
  | storeRegisters => cases run; simp only [exec, execStoreRegisters, raised, if_true]
  | loadRegisters => cases run; simp only [exec, execLoadRegisters, raised, if_true]
  | _ => cases run

theorem exec_raises_of_runLeavesMemory {i : Instr} (run : dataRunLength i = some n) (leaves : RunLeavesMemory s n) :
    ∃ t, exec i s = .next t ∧
      Raises s t .dataOutOfRange (s.pc - 2) (some (encode i)) (some ⟨s.i, n⟩) :=
  ⟨_, exec_of_runLeavesMemory run leaves, s.raiseData_raises i n⟩

end

/-! ## The blocks of `x + 1` registers (rules R155, R156) -/

section
variable (s : State) (x : Nibble)

theorem State.length_firstRegs_succ : (s.firstRegs (x.toNat + 1)).length = x.toNat + 1 :=
  s.length_firstRegs x.isLt

/-- `V[k]` goes to the address of the run's k-th byte. -/
theorem State.memRead_storeBlock (canonical : s.memWf = true) {k : Nibble} (listed : k.toNat ≤ x.toNat) :
    (s.writeData (s.firstRegs (x.toNat + 1))).memRead (s.dataAddr k.toNat) = s.readV k := by
  have length := s.length_firstRegs_succ x
  rw [s.memRead_writeData canonical (by omega) (by omega), s.getD_firstRegs k (by omega)]

/-- Every address that is none of the run's keeps its byte. -/
theorem State.memRead_storeBlock_outside (canonical : s.memWf = true) {a : Addr}
    (outside : ∀ k : Nibble, k.toNat ≤ x.toNat → a ≠ s.dataAddr k.toNat) :
    (s.writeData (s.firstRegs (x.toNat + 1))).memRead a = s.memRead a := by
  have length := s.length_firstRegs_succ x
  apply s.memRead_writeData_outside canonical (by omega)
  intro k inRun
  have asNibble : (BitVec.ofNat 4 k).toNat = k := Nat.mod_eq_of_lt (by omega)
  simpa only [asNibble] using outside (BitVec.ofNat 4 k) (by omega)

/-- Everything a block load does to the registers: `V[0]` to `V[x]` from the run, the others as before. -/
theorem State.readV_loadBlock (z : Nibble) :
    (s.writeRegs 0x0#4 (s.readData (x.toNat + 1))).readV z =
      if z.toNat ≤ x.toNat then s.memRead (s.dataAddr z.toNat) else s.readV z := by
  have length := s.length_readData (x.toNat + 1)
  have start : (0x0#4).toNat = 0 := rfl
  rw [s.readV_writeRegs _ _ _ (by omega), length]
  by_cases loaded : z.toNat ≤ x.toNat
  · rw [if_pos (by omega), if_pos loaded]
    exact s.getD_readData (by omega)
  · rw [if_neg (by omega), if_neg loaded]

end

/-! ## The obligations -/

/-- Settles O27: each is one write of `I`, with the exact glyph address for `LD F`. -/
theorem loadIndexAndFontAddress : Obligations.LoadIndexAndFontAddress := by
  refine ⟨fun x nnn s => ⟨exec_loadIndex nnn s, ?_⟩, rfl⟩
  exact ⟨_, exec_fontAddress x s, rfl, s.toNat_fontAddr (s.readV x)⟩

/-- Settles O28: the index is the sum of each `ADD_I_OVERFLOW`, and the flag is written or not as `ADD_I_VF` says. -/
theorem addIndexFollowsItsConfiguration : Obligations.AddIndexFollowsItsConfiguration := by
  intro x s
  refine ⟨_, exec_addIndex x s, ?_, ?_, ?_, ?_⟩
  · exact State.toNat_indexSum_of_lt
  · intro outside
    refine ⟨State.toNat_indexSum_of_wrap, ?_⟩
    intro saturate
    exact congrArg BitVec.toNat (State.indexSum_of_saturate outside saturate)
  · intro off
    rw [State.writeIndexFlag_of_off off]
    rfl
  · intro on
    refine ⟨rfl, ?_, ?_⟩
    · intro z other
      exact State.readV_writeIndexFlag_of_ne other _
    · rw [State.readV_setI, State.readV_vf_writeIndexFlag on, flagByte_eq]
      simp only [indexOverflowFlag_iff]

/-- Settles O29: the run at `I` takes the three digits, whose addresses are the only ones written. -/
theorem storeBcdWritesThreeDigits : Obligations.StoreBcdWritesThreeDigits := by
  intro x s canonical
  refine ⟨?_, exec_raises_of_runLeavesMemory rfl⟩
  intro stays
  have stored {k : Nat} (inRun : k < 3) := s.memRead_writeData canonical (bs := bcdDigits (s.readV x)) (by simp) inRun
  refine ⟨_, exec_storeBcd_of_stays x stays, rfl, ?_, ?_, ?_, ?_⟩
  · rw [stored (by decide), toNat_bcdDigits_hundreds]
  · rw [stored (by decide), toNat_bcdDigits_tens]
  · rw [stored (by decide), toNat_bcdDigits_ones]
  · intro a not0 not1 not2
    apply s.memRead_writeData_outside canonical (by simp)
    intro k inRun
    match k, inRun with
    | 0, _ => exact not0
    | 1, _ => exact not1
    | 2, _ => exact not2

/-- Settles O30: the stored run is the first `x + 1` registers. -/
theorem storeRegistersWritesTheBlock : Obligations.StoreRegistersWritesTheBlock := by
  intro x s canonical
  refine ⟨?_, exec_raises_of_runLeavesMemory rfl⟩
  intro stays
  exact ⟨_, exec_storeRegisters_of_stays stays, rfl, fun _ => s.memRead_storeBlock x canonical,
    fun _ => s.memRead_storeBlock_outside x canonical⟩

/-- Settles O31: the registers up to `x` take the run's bytes, and nothing but the registers is written. -/
theorem loadRegistersReadsTheBlock : Obligations.LoadRegistersReadsTheBlock := by
  intro x s
  refine ⟨?_, exec_raises_of_runLeavesMemory rfl⟩
  intro stays
  refine ⟨_, exec_loadRegisters_of_stays stays, s.writeRegs_frame _ _, ?_, ?_⟩
  · intro k listed
    rw [State.readV_loadBlock, if_pos listed]
  · intro z above
    rw [State.readV_loadBlock, if_neg (by omega)]

end Sys2Proof.Machine
end

section
/-! PROOFS. The timer instructions (rules R170 to R172 of 43_timers_keys.md). -/

namespace Sys2Proof.Machine

/-! ## What each instruction does -/

section
variable (x : Nibble) (s : State)

theorem exec_loadDelay : exec (.loadDelay x) s = .next (s.writeV x s.dt) := rfl

theorem exec_setDelay : exec (.setDelay x) s = .next { s with dt := s.readV x } := rfl

theorem exec_setSound : exec (.setSound x) s = .next { s with st := s.readV x } := rfl

end

/-! ## The obligation -/

/-- Settles O34: reading the delay timer is one register write, and each set is the write of its timer's field. -/
theorem timerInstructionsMoveOneByte : Obligations.TimerInstructionsMoveOneByte := by
  intro x s
  refine ⟨?_, exec_setDelay x s, exec_setSound x s⟩
  exact ⟨_, exec_loadDelay x s, s.writeV_onlyWritesV x s.dt⟩

end Sys2Proof.Machine
end

section
/-! PROOFS. The display instructions (rules R190, R191) and the writers of the framebuffer (rule R193) of
44_display.md. -/

namespace Sys2Proof.Machine

/-! ## What a drawn sprite does to the framebuffer (rule R191) -/

theorem inGrid_of_getPixel {fb : Framebuffer} {r c : Nat} (isSet : getPixel fb r c = true) : r < 32 ∧ c < 64 := by
  by_contra outside
  rw [getPixel_outside fb outside] at isSet
  exact Bool.false_ne_true isSet

section
variable (x y n : Nibble) (s : State)

/-- The rows lit by the bytes that the draw reads are the lit positions of the sprite. -/
theorem rowsLit_readData_iff (r c : Nat) :
    rowsLit ((s.readV x).toNat % 64) ((s.readV y).toNat % 32) (s.readData n.toNat) r c = true ↔
      SpriteLit s x y n r c := by
  simp only [rowsLit, byteLit, SpriteLit, Bool.and_eq_true, decide_eq_true_eq, State.length_readData,
    true_and, and_assoc]
  refine and_congr_right fun top => and_congr_right fun bottom => ?_
  rw [s.getD_readData (by omega)]

/-- A pixel of the grid is inverted exactly under a lit sprite bit. -/
theorem getPixel_drawSprite_iff {r c : Nat} (hr : r < 32) (hc : c < 64) :
    getPixel (s.drawSprite x y (s.readData n.toNat)).1 r c = !getPixel s.fb r c ↔ SpriteLit s x y n r c := by
  rw [← rowsLit_readData_iff, State.drawSprite, getPixel_drawRows _ _ _ _ hr hc]
  cases getPixel s.fb r c <;> simp

/-- The draw collides exactly when a lit sprite bit meets a set pixel, which is one of the grid. -/
theorem collided_drawSprite_iff :
    (s.drawSprite x y (s.readData n.toNat)).2 = true ↔
      ∃ r c, SpriteLit s x y n r c ∧ getPixel s.fb r c = true := by
  simp only [State.drawSprite, collided_drawRows, rowsLit_readData_iff, Bool.false_eq_true, false_or]
  constructor
  · rintro ⟨r, c, -, -, lit, wasSet⟩
    exact ⟨r, c, lit, wasSet⟩
  · rintro ⟨r, c, lit, wasSet⟩
    obtain ⟨hr, hc⟩ := inGrid_of_getPixel wasSet
    exact ⟨r, c, hr, hc, lit, wasSet⟩

end

/-! ## What each instruction does -/

theorem exec_clearScreen (s : State) :
    exec .clearScreen s = .next { s with fb := Vector.replicate 32 (Vector.replicate 64 false) } := rfl

theorem exec_draw_of_stays (x y : Nibble) {n : Nibble} {s : State} (stays : ¬RunLeavesMemory s n.toNat) :
    exec (.draw x y n) s = .next
      { s.writeV vf (flagByte (s.drawSprite x y (s.readData n.toNat)).2) with
        fb := (s.drawSprite x y (s.readData n.toNat)).1 } := by
  simp only [exec, execDraw, State.dataRunRaises_eq_false stays, Bool.false_eq_true, if_false]

/-! ## What leaves the framebuffer as it is (rule R193) -/

@[simp] theorem waitKeyWith_fb (event : Option Nibble) (x : Nibble) (s : State) :
    (waitKeyWith event x s).fb = s.fb := by
  cases event <;> rfl

@[simp] theorem State.load_fb (s : State) (image : List Byte) : (s.load image).state.fb = s.fb := by
  unfold State.load
  split <;> rfl

section
variable {i : Instr} {s t : State}

theorem fb_of_exec_call {nnn : Addr} (run : exec (.call nnn) s = .next t) : t.fb = s.fb := by
  by_cases full : s.cfg.stackDepth = some s.stack.length
  · cases (exec_call_of_full nnn full).symm.trans run
    rfl
  · cases (exec_call_of_room nnn full).symm.trans run
    rfl

theorem fb_of_exec_ret (run : exec .ret s = .next t) : t.fb = s.fb := by
  rcases s.stack.eq_nil_or_concat' with empty | ⟨below, target, pushed⟩
  · cases (exec_ret_of_stack_eq_nil empty).symm.trans run
    rfl
  · cases (exec_ret_of_stack_eq_append pushed).symm.trans run
    rfl

/-- An instruction with a run keeps the framebuffer when it does so on a run that stays inside memory: raising the fault
writes no pixel. -/
theorem fb_of_exec_dataRun {u : State} {n : Nat} (length : dataRunLength i = some n) (run : exec i s = .next t)
    (inside : ¬RunLeavesMemory s n → exec i s = .next u) (kept : u.fb = s.fb) : t.fb = s.fb := by
  by_cases leaves : RunLeavesMemory s n
  · cases (exec_of_runLeavesMemory length leaves).symm.trans run
    rfl
  · cases (inside leaves).symm.trans run
    exact kept

theorem fb_of_exec (run : exec i s = .next t) (notClear : i ≠ .clearScreen) (notDraw : ∀ x y n, i ≠ .draw x y n) :
    t.fb = s.fb := by
  cases i with
  | clearScreen => exact absurd rfl notClear
  | draw x y n => exact absurd rfl (notDraw x y n)
  | call => exact fb_of_exec_call run
  | ret => exact fb_of_exec_ret run
  | storeBcd x => exact fb_of_exec_dataRun rfl run (exec_storeBcd_of_stays x) (s.writeData_fb _)
  | storeRegisters => exact fb_of_exec_dataRun rfl run exec_storeRegisters_of_stays (s.writeData_fb _)
  | loadRegisters => exact fb_of_exec_dataRun rfl run exec_loadRegisters_of_stays (s.writeRegs_fb _ _)
  | add | sub | subReverse | shiftRight | shiftLeft =>
    cases run
    exact s.writeWithFlag_fb _ _ _
  | waitKey =>
    cases run
    exact waitKeyWith_fb _ _ s.sampled
  | _ =>
    cases run
    rfl

end

/-! ## The obligations -/

/-- Settles O39: every pixel of the clear framebuffer is off, and only the framebuffer is written. -/
theorem clearScreenClearsEveryPixel : Obligations.ClearScreenClearsEveryPixel := by
  intro s
  exact ⟨_, exec_clearScreen s, rfl, getPixel_clear⟩

/-- Settles O40: the flag byte is that of a collision, so the two cases of `VF` are the two values of
`(s.drawSprite …).2`. -/
theorem drawInvertsThePixelsUnderTheSprite : Obligations.DrawInvertsThePixelsUnderTheSprite := by
  intro x y n s
  refine ⟨?_, exec_raises_of_runLeavesMemory rfl⟩
  intro stays
  have collided := collided_drawSprite_iff x y n s
  have flag := s.readV_writeV_self vf (flagByte (s.drawSprite x y (s.readData n.toNat)).2)
  refine ⟨_, exec_draw_of_stays x y stays, rfl, fun z other => s.readV_writeV_of_ne other _,
    fun r c => getPixel_drawSprite_iff x y n s, ?_⟩
  cases hit : (s.drawSprite x y (s.readData n.toNat)).2 with
  | true =>
    rw [hit] at flag
    exact .inl ⟨flag, collided.1 hit⟩
  | false =>
    rw [hit] at flag
    refine .inr ⟨flag, fun r c lit => Bool.eq_false_iff.2 fun wasSet => ?_⟩
    exact Bool.eq_false_iff.1 hit (collided.2 ⟨r, c, lit, wasSet⟩)

/-- Settles O42: the instructions by `fb_of_exec`; among the commands `timer_tick` writes the timers alone and `load`
memory alone. -/
theorem onlyClearAndDrawChangePixels : Obligations.OnlyClearAndDrawChangePixels := by
  refine ⟨fun i s t => fb_of_exec, ?_⟩
  intro c s q run notReset notTick
  cases c with
  | reset => exact absurd rfl notReset
  | cpuTick => exact absurd rfl notTick
  | timerTick =>
    cases run
    exact s.timerTick_fb
  | load image =>
    cases run
    exact s.load_fb image

end Sys2Proof.Machine
end

section
/-! PROOFS. The faults (rules R210 to R218, R222 of 60_exceptions.md) and the replies to the host's commands. -/

namespace Sys2Proof.Machine

/-! ## What an instruction raises -/

/-- The faults of the execute rules, each with the test that raises it (rules R215, R216, R218). -/
inductive RaisedBy (s : State) : Instr → State → Prop
  | ret (empty : s.stack = []) : RaisedBy s .ret (s.raise .stackUnderflow .ret none)
  | call {nnn : Addr} (full : s.cfg.stackDepth = some s.stack.length) :
      RaisedBy s (.call nnn) (s.raise .stackOverflow (.call nnn) none)
  | dataRun {i : Instr} {n : Nat} (length : dataRunLength i = some n) (leaves : RunLeavesMemory s n) :
      RaisedBy s i (s.raiseData i n)

section
variable {i : Instr} {s t : State} {n : Nat}

/-- A run that stays inside memory, or wraps, raises nothing and moves no `pc` (rules R53, R218). -/
theorem exec_dataRun_of_stays (length : dataRunLength i = some n) (stays : ¬RunLeavesMemory s n) :
    ∃ t, exec i s = .next t ∧ t.fault = s.fault ∧ t.pc = s.pc := by
  cases i with
  | draw x y => cases length; exact ⟨_, exec_draw_of_stays x y stays, rfl, rfl⟩
  | storeBcd x => cases length; exact ⟨_, exec_storeBcd_of_stays x stays, rfl, rfl⟩
  | storeRegisters => cases length; exact ⟨_, exec_storeRegisters_of_stays stays, rfl, rfl⟩
  | loadRegisters =>
    cases length
    exact ⟨_, exec_loadRegisters_of_stays stays, s.writeRegs_fault _ _, s.writeRegs_pc _ _⟩
  | _ => cases length

@[simp] theorem waitKeyWith_fault (event : Option Nibble) (x : Nibble) (s : State) :
    (waitKeyWith event x s).fault = s.fault := by
  cases event <;> rfl

theorem fault_of_exec_ret (run : exec .ret s = .next t) : t.fault = s.fault ∨ RaisedBy s .ret t := by
  rcases s.stack.eq_nil_or_concat' with empty | ⟨below, target, pushed⟩
  · cases (exec_ret_of_stack_eq_nil empty).symm.trans run
    exact .inr (.ret empty)
  · cases (exec_ret_of_stack_eq_append pushed).symm.trans run
    exact .inl rfl

theorem fault_of_exec_call {nnn : Addr} (run : exec (.call nnn) s = .next t) :
    t.fault = s.fault ∨ RaisedBy s (.call nnn) t := by
  by_cases full : s.cfg.stackDepth = some s.stack.length
  · cases (exec_call_of_full nnn full).symm.trans run
    exact .inr (.call full)
  · cases (exec_call_of_room nnn full).symm.trans run
    exact .inl rfl

theorem fault_of_exec_dataRun (length : dataRunLength i = some n) (run : exec i s = .next t) :
    t.fault = s.fault ∨ RaisedBy s i t := by
  by_cases leaves : RunLeavesMemory s n
  · cases (exec_of_runLeavesMemory length leaves).symm.trans run
    exact .inr (.dataRun length leaves)
  · obtain ⟨u, ran, kept, -⟩ := exec_dataRun_of_stays length leaves
    cases ran.symm.trans run
    exact .inl kept

/-- An instruction keeps the fault register or raises one of the faults of `RaisedBy`. -/
theorem fault_of_exec (run : exec i s = .next t) : t.fault = s.fault ∨ RaisedBy s i t := by
  cases i with
  | ret => exact fault_of_exec_ret run
  | call => exact fault_of_exec_call run
  | draw | storeBcd | storeRegisters | loadRegisters => exact fault_of_exec_dataRun rfl run
  | add | sub | subReverse | shiftRight | shiftLeft =>
    cases run
    exact .inl (s.writeWithFlag_fault _ _ _)
  | waitKey =>
    cases run
    exact .inl (waitKeyWith_fault _ _ s.sampled)
  | _ =>
    cases run
    exact .inl rfl

end

/-- No arm of `exec` stops the machine: a fault is a next state too (rule R210). -/
theorem exists_exec_eq_next (i : Instr) (s : State) : ∃ t, exec i s = .next t := by
  cases i <;> exact ⟨_, rfl⟩

/-! ## What a `cpu_tick` does -/

section
variable {s : State} {r : FaultRecord} {w : Word}

theorem step_of_fault_eq_some (held : s.fault = some r) : step s = .next s := by
  simp only [step, cpuTick, held]

theorem step_of_decode_eq_none (noFault : s.fault = none) (fetched : s.fetch16 s.pc = some w)
    (noInstr : decode s.cfg.rndPresent w = none) : step s = .next (s.raiseAt s.pc .decodeFailure (some w) none) := by
  simp only [step, cpuTick, noFault, cycle, fetched, noInstr]

theorem step_of_decode_eq_some {i : Instr} (noFault : s.fault = none) (fetched : s.fetch16 s.pc = some w)
    (decoded : decode s.cfg.rndPresent w = some i) : step s = exec i s.advance := by
  simp only [step, cpuTick, noFault, cycle, fetched, decoded]

end

section
variable (s : State)

/-- Every `cpu_tick` ends in a next state, at whichever stage of the cycle it ends (rules R90, R210). -/
theorem exists_step_eq_next : ∃ t, step s = .next t := by
  cases held : s.fault with
  | some r => exact ⟨_, step_of_fault_eq_some held⟩
  | none =>
    cases fetched : s.fetch16 s.pc with
    | none => exact ⟨_, step_of_fetch16_eq_none held fetched⟩
    | some w =>
      cases decoded : decode s.cfg.rndPresent w with
      | none => exact ⟨_, step_of_decode_eq_none held fetched decoded⟩
      | some i =>
        rw [step_of_decode_eq_some held fetched decoded]
        exact exists_exec_eq_next i s.advance

/-- Raising in an execute rule takes the fetch stage's advance back: the fault register alone changes (rule R212). -/
theorem State.raise_advance (code : FaultCode) (i : Instr) (info : Option DataInfo) :
    s.advance.raise code i info = { s with fault := some ⟨code, s.pc, some (encode i), info⟩ } := by
  have ipc : s.advance.ipc = s.pc := BitVec.add_sub_cancel s.pc 2
  rw [State.raise, State.raiseAt, ipc]
  rfl

end

/-! ## The commands of the host -/

section
variable (s : State)

/-- One tick takes one off a timer, as natural numbers do (rule R222). -/
theorem toNat_tickDown (b : Byte) : (tickDown b).toNat = b.toNat - 1 := by
  unfold tickDown
  split
  case isTrue zero => rw [zero]; rfl
  case isFalse notZero => bv_omega

theorem command_timerTick : command .timerTick s = .next ⟨.ok, s.timerTick⟩ := rfl

theorem command_load (image : List Byte) : command (.load image) s = .next (s.load image) := rfl

theorem command_cpuTick {s t : State} (ticked : step s = .next t) : command .cpuTick s = .next t.report := by
  simp only [command, ticked]

theorem State.report_of_fault_eq_some {s : State} {r : FaultRecord} (held : s.fault = some r) :
    s.report = ⟨.faulted r, s⟩ := by
  simp only [State.report, held]

theorem State.report_of_fault_eq_none {s : State} (noFault : s.fault = none) : s.report = ⟨.ok, s⟩ := by
  simp only [State.report, noFault]

/-- The memory has room for 3584 bytes from the program base on (rule R243). -/
theorem State.load_of_fits {image : List Byte} (fits : image.length ≤ 3584) :
    s.load image = ⟨.ok, s.store 0x200#12 image⟩ := if_pos (decide_eq_true fits)

theorem State.load_of_tooLarge {image : List Byte} (tooLarge : ¬image.length ≤ 3584) :
    s.load image = ⟨.loadError .tooLarge, s⟩ := if_neg (Bool.eq_false_iff.1 (decide_eq_false tooLarge))

@[simp] theorem State.load_fault (image : List Byte) : (s.load image).state.fault = s.fault := by
  unfold State.load
  split <;> rfl

end

/-! ## The obligations -/

/-- Settles O37: both timers by `toNat_tickDown`, in every state. -/
theorem timerTickCountsDown : Obligations.TimerTickCountsDown := by
  intro s
  exact ⟨_, command_timerTick s, rfl, toNat_tickDown s.dt, toNat_tickDown s.st⟩

/-- Settles O7: the tick ends at the decode stage, and the next one finds the record held. -/
theorem decodeFailureIsReportedAndStops : Obligations.DecodeFailureIsReportedAndStops := by
  intro s w noFault fetched noInstr
  exact ⟨_, step_of_decode_eq_none noFault fetched noInstr, raises_raiseAt s _ _ _ _,
    step_of_fault_eq_some (s.raiseAt_fault _ _ _ _)⟩

/-- Settles O32: the four instructions raise by `RunLeavesMemory`, and a run that stays writes neither the fault register
nor `pc`. -/
theorem dataOutOfRangeExactlyWhenTheRunLeaves : Obligations.DataOutOfRangeExactlyWhenTheRunLeaves := by
  intro i n s length
  exact ⟨exec_raises_of_runLeavesMemory length, exec_dataRun_of_stays length⟩

/-- Settles O8: a held record ends the tick at once, `timer_tick` and `load` write no fault register, and `reset` clears
it. -/
theorem heldFaultIsSticky : Obligations.HeldFaultIsSticky := by
  intro s r held
  have stays : step s = .next s := step_of_fault_eq_some held
  have reported : command .cpuTick s = .next ⟨.faulted r, s⟩ := by
    rw [command_cpuTick stays, State.report_of_fault_eq_some held]
  have notNone : s.fault ≠ none := by rw [held]; exact Option.some_ne_none r
  refine ⟨stays, reported, ⟨_, command_timerTick s, held, toNat_tickDown s.dt, toNat_tickDown s.st⟩, ?_, ?_⟩
  · intro image fits
    exact ⟨_, by rw [command_load, s.load_of_fits fits], rfl, held⟩
  · intro c q run
    cases c with
    | reset =>
      cases run
      exact iff_of_true s.hostReset_fault rfl
    | load image =>
      cases run
      exact iff_of_false (by rwa [s.load_fault image]) nofun
    | cpuTick =>
      cases reported.symm.trans run
      exact iff_of_false notNone nofun
    | timerTick =>
      cases run
      exact iff_of_false notNone nofun

/-- Settles O44: a `cpu_tick` by `exists_step_eq_next`, and a `load` by the length of its image. -/
theorem everyCommandEndsInAReply : Obligations.EveryCommandEndsInAReply := by
  intro c s
  cases c with
  | reset => exact ⟨_, command_reset s, nofun, fun _ => rfl, nofun⟩
  | timerTick => exact ⟨_, command_timerTick s, nofun, fun _ => rfl, nofun⟩
  | load image =>
    refine ⟨_, command_load s image, nofun, nofun, fun _ _ => ?_⟩
    by_cases fits : image.length ≤ 3584
    · rw [s.load_of_fits fits]
      exact .inl rfl
    · rw [s.load_of_tooLarge fits]
      exact .inr ⟨rfl, rfl⟩
  | cpuTick =>
    obtain ⟨t, ticked⟩ := exists_step_eq_next s
    refine ⟨_, command_cpuTick ticked, fun _ => ?_, nofun, nofun⟩
    cases held : t.fault with
    | none =>
      rw [State.report_of_fault_eq_none held]
      exact ⟨⟨t, ticked, rfl⟩, .inl ⟨rfl, held⟩⟩
    | some r =>
      rw [State.report_of_fault_eq_some held]
      exact ⟨⟨t, ticked, rfl⟩, .inr ⟨r, rfl, held⟩⟩

/-- Settles O9: the stages of a tick by `step_cases`, the faults of the execute stage by `RaisedBy`. The word a rule puts
into its record is the one fetched, because a decoded word encodes back to itself. -/
theorem faultsArePrecise : Obligations.FaultsArePrecise := by
  constructor
  · intro s t r noFault run raised
    rcases step_cases run with ⟨held, -⟩ | ⟨-, noWord, rfl⟩ | ⟨w, -, fetched, noInstr, rfl⟩ |
      ⟨w, i, -, fetched, decoded, ran⟩
    · exact absurd noFault held
    · cases raised
      exact ⟨rfl, rfl, noWord.symm, rfl, (s.fetch16_eq_none s.pc).1 noWord, rfl, rfl⟩
    · cases raised
      exact ⟨rfl, rfl, fetched.symm, rfl, ⟨w, rfl, noInstr⟩, rfl⟩
    · obtain ⟨rfl, -⟩ := encode_eq_and_wellFormed_of_decode decoded
      rcases fault_of_exec ran with kept | cause
      · exact absurd (raised.symm.trans (kept.trans noFault)) (Option.some_ne_none r)
      · cases cause with
        | ret empty =>
          rw [s.raise_advance] at raised ⊢
          cases raised
          exact ⟨rfl, rfl, fetched.symm, rfl, empty, rfl, rfl⟩
        | @call nnn full =>
          rw [s.raise_advance] at raised ⊢
          cases raised
          exact ⟨rfl, rfl, fetched.symm, rfl, full, ⟨nnn, rfl⟩, rfl⟩
        | @dataRun _ n length leaves =>
          rw [State.raiseData, s.raise_advance] at raised ⊢
          cases raised
          exact ⟨rfl, rfl, fetched.symm, rfl, i, n, rfl, length, rfl, leaves⟩
  · intro s w i n noFault fetched decoded length leaves
    obtain ⟨rfl, -⟩ := encode_eq_and_wellFormed_of_decode decoded
    have raised : exec i s.advance = .next (s.advance.raiseData i n) := exec_of_runLeavesMemory length leaves
    rw [step_of_decode_eq_some noFault fetched decoded, raised, State.raiseData, s.raise_advance]
    rfl

end Sys2Proof.Machine
end

section
/-! PROOFS. The program image in memory (70_reset_and_hazards.md). `load` of an image that fits is one
stored run at 0x200 (rule R243); every address lies at its offset in that run or outside it, and `State.memRead_store`
gives the byte read there afterwards. -/

namespace Sys2Proof.Machine

/-! ## Offsets from the program base -/

/-- From the program base on, an address lies at its offset in the image; below it the offset goes around the end of
memory, past every image that fits. -/
theorem addrOffset_progBase (a : Addr) :
    addrOffset 0x200#12 a = if 0x200 ≤ a.toNat then a.toNat - 0x200 else a.toNat + 3584 := by
  unfold addrOffset
  split <;> bv_omega

/-! ## Reading after a load -/

section
variable (s : State) {image : List Byte}

theorem State.memRead_storeImage (canonical : s.memWf = true) (fits : image.length ≤ 3584) {k : Nat}
    (inImage : k < image.length) : (s.store 0x200#12 image).memRead (BitVec.ofNat 12 (0x200 + k)) = image[k] := by
  have address : (BitVec.ofNat 12 (0x200 + k)).toNat = 0x200 + k := Nat.mod_eq_of_lt (by omega)
  have offset : addrOffset 0x200#12 (BitVec.ofNat 12 (0x200 + k)) = k := by
    rw [addrOffset_progBase, address, if_pos (Nat.le_add_right _ k), Nat.add_sub_cancel_left]
  rw [State.memRead_store canonical _ _ (by omega), offset, if_pos inImage]
  exact (List.getElem_eq_getD _).symm

theorem State.memRead_storeImage_outside (canonical : s.memWf = true) (fits : image.length ≤ 3584) {a : Addr}
    (outside : a.toNat < 0x200 ∨ 0x200 + image.length ≤ a.toNat) :
    (s.store 0x200#12 image).memRead a = s.memRead a := by
  have offset : ¬addrOffset 0x200#12 a < image.length := by
    rw [addrOffset_progBase]
    split <;> omega
  rw [State.memRead_store canonical _ _ (by omega), if_neg offset]

end

/-! ## The obligation -/

/-- Settles O45: a load by the length of its image, and the bytes of one that fits by their offsets in it. -/
theorem loadCopiesTheImage : Obligations.LoadCopiesTheImage := by
  intro image s canonical
  refine ⟨fun fits => ?_, fun tooLarge => ?_⟩
  · refine ⟨s.store 0x200#12 image, ?_, rfl, ?_, ?_⟩
    · rw [command_load, s.load_of_fits fits]
    · exact fun _ inImage => s.memRead_storeImage canonical fits inImage
    · exact fun _ outside => s.memRead_storeImage_outside canonical fits outside
  · rw [command_load, s.load_of_tooLarge (Nat.not_le.2 tooLarge)]

end Sys2Proof.Machine
end

section
/-! PROOFS. The round trip of the decoder and the encoder (30_encoding.md sections 2 and 3) and the step that runs what
was decoded (section 5). -/

namespace Sys2Proof

/-- The encoder puts the bits the dispatch reads, and every operand, where the decoder looks for them: the class alone
(rules R74, R78), the class and the low nibble (R77, R79), the class and the low byte (R80, R81) or the whole word
(R76). -/
theorem decode_encode {rnd : Bool} (i : Instr) (wf : i.wellFormed rnd = true) : decode rnd (encode i) = some i := by
  cases i
  case clearScreen | ret => rfl
  case jump | call | loadIndex | jumpOffset =>
    rw [encode, decode, fieldClass_packAddr, fieldNnn_packAddr]
    rfl
  case skipEqLiteral | skipNeLiteral | loadLiteral | addLiteral =>
    rw [encode, decode, fieldClass_packByte, fieldX_packByte, fieldKk_packByte]
    rfl
  case random =>
    have present : rnd = true := wf
    rw [encode, decode, fieldClass_packByte, fieldX_packByte, fieldKk_packByte, present]
    rfl
  case draw =>
    rw [encode, decode, fieldClass_packRegs, fieldX_packRegs, fieldY_packRegs, fieldN_packRegs]
    rfl
  case skipEqReg | skipNeReg =>
    rw [encode, decode, fieldClass_packRegs, fieldX_packRegs, fieldY_packRegs, fieldN_packRegs]
    rfl
  case move | or | and | xor | add | sub | shiftRight | subReverse | shiftLeft =>
    rw [encode, decode, decodeClass8, fieldClass_packRegs, fieldX_packRegs, fieldY_packRegs, fieldN_packRegs]
    rfl
  case skipKeyPressed | skipKeyNotPressed =>
    rw [encode, decode, decodeClassE, fieldClass_packByte, fieldX_packByte, fieldKk_packByte]
    rfl
  case loadDelay | waitKey | setDelay | setSound | addIndex | fontAddress | storeBcd | storeRegisters | loadRegisters =>
    rw [encode, decode, decodeClassF, fieldClass_packByte, fieldX_packByte, fieldKk_packByte]
    rfl

/-- A pair of bytes decodes as the word they make. -/
theorem decodeBytes_pair_iff {rnd : Bool} {hi lo : Byte} {i : Instr} :
    decodeBytes rnd [hi, lo] = some (i, []) ↔ decode rnd (wordOfBytes hi lo) = some i := by
  simp [decodeBytes]

/-! ## The obligations -/

/-- Settles O1: the word by `decode_encode`, and the bytes because they make that word again. -/
theorem decodeOfEncodeIsTheInstruction : Obligations.DecodeOfEncodeIsTheInstruction := by
  intro rnd i rest wf
  have decoded := decode_encode i wf
  exact ⟨decoded, by rw [decodeBytes_encodeBytes, decoded, Option.map_some]⟩

/-- Settles O2: a decoded word is packed again from the fields that the dispatch read. -/
theorem encodeOfDecodeIsTheWord : Obligations.EncodeOfDecodeIsTheWord := by
  intro rnd w i
  exact encode_eq_and_wellFormed_of_decode

/-- Settles O4: each word is a literal, which the decoder evaluates. -/
theorem sampleWordsDecode : Obligations.SampleWordsDecode := by
  unfold Obligations.SampleWordsDecode
  decide

/-- Settles O5: the fetch succeeds because both bytes are in memory, and the word of the two bytes decodes as they do. -/
theorem stepRunsTheDecodedInstruction : Obligations.StepRunsTheDecodedInstruction := by
  intro s i noFault inMemory decoded
  exact Machine.step_of_decode_eq_some noFault (s.fetch16_of_le inMemory) (decodeBytes_pair_iff.1 decoded)

end Sys2Proof
end

section
/-! PROOFS. What one instruction can do to the state, said once (`Effect`), and what follows from it: the access table
of 10_state.md section 1, the configuration that nothing writes, and the sound timer that nothing reads. -/

namespace Sys2Proof.Machine

/-! ## The effects of an instruction -/

/-- The registers of `v` that differ from those of `s` are ones that the access table lists for `i`. -/
def WritesListed (s : State) (i : Instr) (v : Vector Byte 16) : Prop :=
  ∀ z, State.readV { s with v := v } z ≠ s.readV z → writesV s.cfg i z = true

/-- Where an instruction that neither calls nor returns may set `pc`: on, past one more instruction, or to an address
that the rules can form (rules R101, R104, R109; the bound is that of rule R23). -/
def AllowedTarget (s : State) (target : Word) : Prop :=
  target = s.pc ∨ target = s.pc + 2 ∨ target.toNat ≤ 0x10FE

/-- The states that an instruction executed in `s` can end in. -/
inductive Effect (s : State) : Instr → State → Prop
  | raised {i : Instr} {t : State} (cause : RaisedBy s i t) : Effect s i t
  | registers {i : Instr} {v : Vector Byte 16} (listed : WritesListed s i v) : Effect s i { s with v := v }
  | flow {i : Instr} {target : Word} (listed : writesPc i = true) (allowed : AllowedTarget s target) :
      Effect s i (s.setPc target)
  | call {nnn : Addr} (room : s.cfg.stackDepth ≠ some s.stack.length) :
      Effect s (.call nnn) ((s.push s.pc).setPc (nnn.setWidth 16))
  | ret {below : List Word} {target : Word} (pushed : s.stack = below ++ [target]) :
      Effect s .ret { s with stack := below, pc := target }
  | random {x : Nibble} {kk b : Byte} : Effect s (.random x kk) (s.sampled.writeV x b)
  | keyPressed {x : Nibble} {held : Bool} : Effect s (.skipKeyPressed x) (s.sampled.skipIf held)
  | keyNotPressed {x : Nibble} {held : Bool} : Effect s (.skipKeyNotPressed x) (s.sampled.skipIf held)
  | key {x : Nibble} {b : Byte} : Effect s (.waitKey x) (s.sampled.writeV x b)
  | noKey {x : Nibble} : Effect s (.waitKey x) (s.sampled.setPc (s.pc - 2))
  | setDelay {x : Nibble} {b : Byte} : Effect s (.setDelay x) { s with dt := b }
  | setSound {x : Nibble} {b : Byte} : Effect s (.setSound x) { s with st := b }
  | loadIndex {nnn : Addr} : Effect s (.loadIndex nnn) (s.setI nnn)
  | fontAddress {x : Nibble} {a : Addr} : Effect s (.fontAddress x) (s.setI a)
  | addIndex {x : Nibble} {flag : Bool} {a : Addr} : Effect s (.addIndex x) ((s.writeIndexFlag flag).setI a)
  | storeBcd {x : Nibble} {bs : List Byte} : Effect s (.storeBcd x) (s.writeData bs)
  | storeRegisters {x : Nibble} {bs : List Byte} : Effect s (.storeRegisters x) (s.writeData bs)
  | clearScreen {fb : Framebuffer} : Effect s .clearScreen { s with fb := fb }
  | draw {x y n : Nibble} {fb : Framebuffer} {b : Byte} : Effect s (.draw x y n) { s.writeV vf b with fb := fb }

/-! ## The registers that each kind of write lists -/

section
variable {s : State} {i : Instr} {x : Nibble}

theorem State.eq_of_readV_writeV_ne (s : State) {z : Nibble} {b : Byte}
    (changed : (s.writeV x b).readV z ≠ s.readV z) : z = x := by
  by_contra other
  exact changed (s.readV_writeV_of_ne other b)

theorem State.eq_vf_of_readV_writeIndexFlag_ne (s : State) {z : Nibble} {flag : Bool}
    (changed : (s.writeIndexFlag flag).readV z ≠ s.readV z) : s.cfg.addIVf = true ∧ z = vf := by
  by_contra other
  exact changed ((s.readV_writeIndexFlag z flag).trans (if_neg other))

theorem writesListed_writeV (listed : writesV s.cfg i x = true) (b : Byte) : WritesListed s i (s.writeV x b).v := by
  intro z changed
  rw [s.eq_of_readV_writeV_ne (b := b) changed, listed]

theorem writesListed_writeWithFlag (listed : writesV s.cfg i x = true) (flagListed : writesV s.cfg i 0xF#4 = true)
    (b : Byte) (flag : Bool) : WritesListed s i (s.writeWithFlag x b flag).v := by
  intro z changed
  by_cases result : z = x
  · rw [result, listed]
  · by_cases carry : z = 0xF#4
    · rw [carry, flagListed]
    · exact absurd ((s.writeWithFlag_onlyWrites x b flag).others z result carry) changed

theorem writesListed_loadBlock (x : Nibble) :
    WritesListed s (.loadRegisters x) (s.writeRegs 0x0#4 (s.readData (x.toNat + 1))).v := by
  intro z changed
  apply decide_eq_true
  by_contra above
  exact changed ((s.readV_loadBlock x z).trans (if_neg above))

/-! ## Every instruction has one of the effects -/

theorem effect_writeV (listed : writesV s.cfg i x = true) (b : Byte) : Effect s i (s.writeV x b) :=
  .registers (writesListed_writeV listed b)

theorem effect_writeWithFlag (listed : writesV s.cfg i x = true) (flagListed : writesV s.cfg i 0xF#4 = true)
    (b : Byte) (flag : Bool) : Effect s i (s.writeWithFlag x b flag) := by
  rw [s.writeWithFlag_frame x b flag]
  exact .registers (writesListed_writeWithFlag listed flagListed b flag)

theorem effect_loadBlock (x : Nibble) :
    Effect s (.loadRegisters x) (s.writeRegs 0x0#4 (s.readData (x.toNat + 1))) := by
  rw [s.writeRegs_frame 0x0#4 (s.readData (x.toNat + 1))]
  exact .registers (writesListed_loadBlock x)

theorem allowedTarget_address (nnn : Addr) : AllowedTarget s (nnn.setWidth 16) := by
  refine .inr (.inr ?_)
  rw [BitVec.toNat_setWidth_of_le (by decide)]
  omega

theorem allowedTarget_jumpOffsetTarget (nnn : Addr) : AllowedTarget s (s.jumpOffsetTarget nnn) := by
  refine .inr (.inr ?_)
  rw [State.toNat_jumpOffsetTarget]
  omega

theorem allowedTarget_skipIf (skips : Bool) : AllowedTarget s (s.skipIf skips).pc := by
  cases skips with
  | false => exact .inl rfl
  | true => exact .inr (.inl rfl)

variable {t : State}

theorem effect_of_exec_call {nnn : Addr} (run : exec (.call nnn) s = .next t) : Effect s (.call nnn) t := by
  by_cases full : s.cfg.stackDepth = some s.stack.length
  · cases (exec_call_of_full nnn full).symm.trans run
    exact .raised (.call full)
  · cases (exec_call_of_room nnn full).symm.trans run
    exact .call full

theorem effect_of_exec_ret (run : exec .ret s = .next t) : Effect s .ret t := by
  rcases s.stack.eq_nil_or_concat' with empty | ⟨below, target, pushed⟩
  · cases (exec_ret_of_stack_eq_nil empty).symm.trans run
    exact .raised (.ret empty)
  · cases (exec_ret_of_stack_eq_append pushed).symm.trans run
    exact .ret pushed

theorem effect_of_exec_waitKey (run : exec (.waitKey x) s = .next t) : Effect s (.waitKey x) t := by
  cases run
  cases Config.keyEvent s.samples with
  | some k => exact .key
  | none => exact .noKey

theorem effect_of_exec_dataRun {u : State} {n : Nat} (length : dataRunLength i = some n) (run : exec i s = .next t)
    (inside : ¬RunLeavesMemory s n → exec i s = .next u) (effect : Effect s i u) : Effect s i t := by
  by_cases leaves : RunLeavesMemory s n
  · cases (exec_of_runLeavesMemory length leaves).symm.trans run
    exact .raised (.dataRun length leaves)
  · cases (inside leaves).symm.trans run
    exact effect

theorem effect_of_exec (run : exec i s = .next t) : Effect s i t := by
  cases i with
  | call => exact effect_of_exec_call run
  | ret => exact effect_of_exec_ret run
  | waitKey => exact effect_of_exec_waitKey run
  | draw x y => exact effect_of_exec_dataRun rfl run (exec_draw_of_stays x y) .draw
  | storeBcd x => exact effect_of_exec_dataRun rfl run (exec_storeBcd_of_stays x) .storeBcd
  | storeRegisters => exact effect_of_exec_dataRun rfl run exec_storeRegisters_of_stays .storeRegisters
  | loadRegisters x => exact effect_of_exec_dataRun rfl run exec_loadRegisters_of_stays (effect_loadBlock x)
  | jump nnn => cases run; exact .flow rfl (allowedTarget_address nnn)
  | jumpOffset nnn => cases run; exact .flow rfl (allowedTarget_jumpOffsetTarget nnn)
  | skipEqLiteral | skipNeLiteral | skipEqReg | skipNeReg => cases run; exact .flow rfl (allowedTarget_skipIf _)
  | loadLiteral | addLiteral | move | or | and | xor | loadDelay =>
    cases run
    exact effect_writeV (by simp [writesV]) _
  | add | sub | subReverse | shiftRight | shiftLeft =>
    cases run
    exact effect_writeWithFlag (by simp [writesV]) (by simp [writesV]) _ _
  | random => cases run; exact .random
  | skipKeyPressed => cases run; exact .keyPressed
  | skipKeyNotPressed => cases run; exact .keyNotPressed
  | setDelay => cases run; exact .setDelay
  | setSound => cases run; exact .setSound
  | loadIndex => cases run; exact .loadIndex
  | fontAddress => cases run; exact .fontAddress
  | addIndex => cases run; exact .addIndex
  | clearScreen => cases run; exact .clearScreen

end

/-! ## The writers of each piece of state (10_state.md section 1) -/

section
variable {s : State} {i : Instr} {t : State}

/-- Raising changes the fault register and puts `pc` back, and nothing else (rule R212). -/
theorem RaisedBy.frame (cause : RaisedBy s i t) : ∃ r, t = { s with pc := s.pc - 2, fault := some r } := by
  cases cause <;> exact ⟨_, rfl⟩

theorem Effect.cfg_eq (effect : Effect s i t) : t.cfg = s.cfg := by
  cases effect with
  | raised cause => obtain ⟨r, rfl⟩ := cause.frame; rfl
  | _ => rfl

theorem Effect.writesV_of_readV_ne (effect : Effect s i t) (z : Nibble) (changed : t.readV z ≠ s.readV z) :
    writesV s.cfg i z = true := by
  cases effect with
  | raised cause => obtain ⟨r, rfl⟩ := cause.frame; exact absurd rfl changed
  | registers listed => exact listed z changed
  | random | key => exact decide_eq_true (s.sampled.eq_of_readV_writeV_ne changed)
  | draw => exact decide_eq_true (s.eq_of_readV_writeV_ne changed)
  | addIndex =>
    obtain ⟨on, rfl⟩ := s.eq_vf_of_readV_writeIndexFlag_ne changed
    simp [writesV, on, vf]
  | _ => exact absurd rfl changed

theorem Effect.writesPc_of_pc_ne (effect : Effect s i t) (changed : t.pc ≠ s.pc) :
    writesPc i = true ∨ ∃ r, t = { s with pc := s.pc - 2, fault := some r } := by
  cases effect with
  | raised cause => exact .inr cause.frame
  | flow listed => exact .inl listed
  | call | ret | keyPressed | keyNotPressed | noKey => exact .inl rfl
  | _ => exact absurd rfl changed

theorem Effect.writer_of_stack_ne (effect : Effect s i t) (changed : t.stack ≠ s.stack) :
    i = .ret ∨ ∃ nnn, i = .call nnn := by
  cases effect with
  | raised cause => obtain ⟨r, rfl⟩ := cause.frame; exact absurd rfl changed
  | ret => exact .inl rfl
  | call => exact .inr ⟨_, rfl⟩
  | _ => exact absurd rfl changed

theorem Effect.writer_of_i_ne (effect : Effect s i t) (changed : t.i ≠ s.i) :
    (∃ nnn, i = .loadIndex nnn) ∨ (∃ x, i = .addIndex x) ∨ ∃ x, i = .fontAddress x := by
  cases effect with
  | raised cause => obtain ⟨r, rfl⟩ := cause.frame; exact absurd rfl changed
  | loadIndex => exact .inl ⟨_, rfl⟩
  | addIndex => exact .inr (.inl ⟨_, rfl⟩)
  | fontAddress => exact .inr (.inr ⟨_, rfl⟩)
  | _ => exact absurd rfl changed

theorem Effect.writer_of_dt_ne (effect : Effect s i t) (changed : t.dt ≠ s.dt) : ∃ x, i = .setDelay x := by
  cases effect with
  | raised cause => obtain ⟨r, rfl⟩ := cause.frame; exact absurd rfl changed
  | setDelay => exact ⟨_, rfl⟩
  | _ => exact absurd rfl changed

theorem Effect.writer_of_st_ne (effect : Effect s i t) (changed : t.st ≠ s.st) : ∃ x, i = .setSound x := by
  cases effect with
  | raised cause => obtain ⟨r, rfl⟩ := cause.frame; exact absurd rfl changed
  | setSound => exact ⟨_, rfl⟩
  | _ => exact absurd rfl changed

theorem Effect.writer_of_fb_ne (effect : Effect s i t) (changed : t.fb ≠ s.fb) :
    i = .clearScreen ∨ ∃ x y n, i = .draw x y n := by
  cases effect with
  | raised cause => obtain ⟨r, rfl⟩ := cause.frame; exact absurd rfl changed
  | clearScreen => exact .inl rfl
  | draw => exact .inr ⟨_, _, _, rfl⟩
  | _ => exact absurd rfl changed

theorem Effect.writer_of_memRead_ne (effect : Effect s i t) (a : Addr) (changed : t.memRead a ≠ s.memRead a) :
    (∃ x, i = .storeBcd x) ∨ ∃ x, i = .storeRegisters x := by
  cases effect with
  | raised cause => obtain ⟨r, rfl⟩ := cause.frame; exact absurd rfl changed
  | storeBcd => exact .inl ⟨_, rfl⟩
  | storeRegisters => exact .inr ⟨_, rfl⟩
  | _ => exact absurd rfl changed

theorem Effect.raises_of_fault_ne (effect : Effect s i t) (changed : t.fault ≠ s.fault) : RaisedBy s i t := by
  cases effect with
  | raised cause => exact cause
  | _ => exact absurd rfl changed

theorem Effect.sampler_of_samples_ne (effect : Effect s i t) (changed : t.samples ≠ s.samples) :
    (∃ x kk, i = .random x kk) ∨ (∃ x, i = .skipKeyPressed x) ∨ (∃ x, i = .skipKeyNotPressed x) ∨
      ∃ x, i = .waitKey x := by
  cases effect with
  | raised cause => obtain ⟨r, rfl⟩ := cause.frame; exact absurd rfl changed
  | random => exact .inl ⟨_, _, rfl⟩
  | keyPressed => exact .inr (.inl ⟨_, rfl⟩)
  | keyNotPressed => exact .inr (.inr (.inl ⟨_, rfl⟩))
  | key | noKey => exact .inr (.inr (.inr ⟨_, rfl⟩))
  | _ => exact absurd rfl changed

end

/-! ## No instruction reads the sound timer (10_state.md section 6) -/

/-- The state with another value in the sound timer. -/
def State.withSound (s : State) (b : Byte) : State := { s with st := b }

section
variable {s : State} {b : Byte} {x : Nibble}

theorem State.writeWithFlag_withSound {r : Byte} {flag : Bool} :
    (s.withSound b).writeWithFlag x r flag = (s.writeWithFlag x r flag).withSound b := by
  unfold State.writeWithFlag
  rw [show (s.withSound b).cfg = s.cfg from rfl]
  cases s.cfg.vfOrder <;> rfl

theorem State.writeRegs_withSound {bs : List Byte} : (s.withSound b).writeRegs x bs = (s.writeRegs x bs).withSound b := by
  induction bs generalizing s x with
  | nil => rfl
  | cons c bs ih => exact ih (s := s.writeV x c)

variable {i : Instr} {t : State}

theorem exec_call_withSound {nnn : Addr} (run : exec (.call nnn) s = .next t) :
    ∃ u, exec (.call nnn) (s.withSound b) = .next u ∧ u.withSound t.st = t := by
  by_cases full : s.cfg.stackDepth = some s.stack.length
  · cases (exec_call_of_full nnn full).symm.trans run
    exact ⟨_, exec_call_of_full (s := s.withSound b) nnn full, rfl⟩
  · cases (exec_call_of_room nnn full).symm.trans run
    exact ⟨_, exec_call_of_room (s := s.withSound b) nnn full, rfl⟩

theorem exec_ret_withSound (run : exec .ret s = .next t) :
    ∃ u, exec .ret (s.withSound b) = .next u ∧ u.withSound t.st = t := by
  rcases s.stack.eq_nil_or_concat' with empty | ⟨below, target, pushed⟩
  · cases (exec_ret_of_stack_eq_nil empty).symm.trans run
    exact ⟨_, exec_ret_of_stack_eq_nil (s := s.withSound b) empty, rfl⟩
  · cases (exec_ret_of_stack_eq_append pushed).symm.trans run
    exact ⟨_, exec_ret_of_stack_eq_append (s := s.withSound b) pushed, rfl⟩

theorem exec_waitKey_withSound (run : exec (.waitKey x) s = .next t) :
    ∃ u, exec (.waitKey x) (s.withSound b) = .next u ∧ u.withSound t.st = t := by
  cases run
  refine ⟨_, rfl, ?_⟩
  rw [show (s.withSound b).samples = s.samples from rfl]
  cases Config.keyEvent s.samples <;> rfl

/-- A run leaves memory or stays whatever the sound timer is, and raising writes no timer. -/
theorem exec_dataRun_withSound {n : Nat} {t' u' : State} (length : dataRunLength i = some n)
    (run : exec i s = .next t) (inside : ¬RunLeavesMemory s n → exec i s = .next t')
    (inside' : ¬RunLeavesMemory (s.withSound b) n → exec i (s.withSound b) = .next u')
    (same : u'.withSound t'.st = t') :
    ∃ u, exec i (s.withSound b) = .next u ∧ u.withSound t.st = t := by
  by_cases leaves : RunLeavesMemory s n
  · cases (exec_of_runLeavesMemory length leaves).symm.trans run
    exact ⟨_, exec_of_runLeavesMemory (s := s.withSound b) length leaves, rfl⟩
  · cases (inside leaves).symm.trans run
    exact ⟨_, inside' leaves, same⟩

/-- With another sound timer an instruction leaves the same state but for that timer. -/
theorem exec_withSound (run : exec i s = .next t) :
    ∃ u, exec i (s.withSound b) = .next u ∧ u.withSound t.st = t := by
  cases i with
  | call => exact exec_call_withSound run
  | ret => exact exec_ret_withSound run
  | waitKey => exact exec_waitKey_withSound run
  | draw x y =>
    exact exec_dataRun_withSound rfl run (exec_draw_of_stays x y) (exec_draw_of_stays x y) rfl
  | storeBcd x =>
    exact exec_dataRun_withSound rfl run (exec_storeBcd_of_stays x) (exec_storeBcd_of_stays x) rfl
  | storeRegisters =>
    exact exec_dataRun_withSound rfl run exec_storeRegisters_of_stays exec_storeRegisters_of_stays rfl
  | loadRegisters x =>
    refine exec_dataRun_withSound rfl run exec_loadRegisters_of_stays exec_loadRegisters_of_stays ?_
    rw [State.writeRegs_withSound]
    rfl
  | add | sub | subReverse | shiftRight | shiftLeft =>
    cases run
    refine ⟨_, rfl, ?_⟩
    rw [State.writeWithFlag_withSound]
    rfl
  | _ =>
    cases run
    exact ⟨_, rfl, rfl⟩

end

/-! ## What a step keeps -/

section
variable {s t : State}

theorem cfg_of_step (run : step s = .next t) : t.cfg = s.cfg := by
  rcases step_cases run with ⟨-, rfl⟩ | ⟨-, -, rfl⟩ | ⟨w, -, -, -, rfl⟩ | ⟨w, i, -, -, -, ran⟩
  · rfl
  · rfl
  · rfl
  · exact (effect_of_exec ran).cfg_eq

@[simp] theorem State.report_state (s : State) : s.report.state = s := by
  unfold State.report
  split <;> rfl

@[simp] theorem State.load_cfg (s : State) (image : List Byte) : (s.load image).state.cfg = s.cfg := by
  unfold State.load
  split <;> rfl

end

/-! ## The obligations -/

/-- Settles O10: the fault register changes only by the causes of `RaisedBy`, each with its own code. -/
theorem onlySixInstructionsRaise : Obligations.OnlySixInstructionsRaise := by
  intro i s t run changed
  cases (effect_of_exec run).raises_of_fault_ne changed with
  | ret => exact ⟨_, _, rfl, .inl ⟨rfl, rfl⟩⟩
  | call => exact ⟨_, _, rfl, .inr (.inl ⟨rfl, _, rfl⟩)⟩
  | dataRun length => exact ⟨_, _, rfl, .inr (.inr ⟨rfl, by rw [length, Option.isSome_some]⟩)⟩

/-- Settles O38: a tick ends at the same stage with another sound timer, because fetch and decode read no timer; an
execute rule by `exec_withSound`. -/
theorem soundTimerIsNeverRead : Obligations.SoundTimerIsNeverRead := by
  intro s t b run
  rcases step_cases run with ⟨held, rfl⟩ | ⟨noFault, noWord, rfl⟩ | ⟨w, noFault, fetched, noInstr, rfl⟩ |
    ⟨w, i, noFault, fetched, decoded, ran⟩
  · obtain ⟨r, held⟩ := Option.ne_none_iff_exists'.1 held
    exact ⟨_, step_of_fault_eq_some (s := t.withSound b) held, rfl⟩
  · exact ⟨_, step_of_fetch16_eq_none (s := s.withSound b) noFault noWord, rfl⟩
  · exact ⟨_, step_of_decode_eq_none (s := s.withSound b) noFault fetched noInstr, rfl⟩
  · obtain ⟨u, ran', same⟩ := exec_withSound (b := b) ran
    exact ⟨u, (step_of_decode_eq_some (s := s.withSound b) noFault fetched decoded).trans ran', same⟩

/-- Settles O47: an instruction by its effect, a `cpu_tick` by `cfg_of_step`; the other commands write no
configuration. -/
theorem configurationNeverChanges : Obligations.ConfigurationNeverChanges := by
  refine ⟨fun i s t run => (effect_of_exec run).cfg_eq, ?_⟩
  intro c s q run
  cases c with
  | reset => cases run; exact s.hostReset_cfg
  | load image => cases run; exact s.load_cfg image
  | timerTick => cases run; exact s.timerTick_cfg
  | cpuTick =>
    obtain ⟨t, ticked⟩ := exists_step_eq_next s
    cases (command_cpuTick ticked).symm.trans run
    rw [t.report_state, cfg_of_step ticked]

/-- Settles O48: each row of the access table by its writer among the effects. -/
theorem eachPieceOfStateHasItsWriters : Obligations.EachPieceOfStateHasItsWriters := by
  intro i s t run
  have effect := effect_of_exec run
  exact ⟨effect.writesV_of_readV_ne, effect.writesPc_of_pc_ne, effect.writer_of_stack_ne, effect.writer_of_i_ne,
    effect.writer_of_dt_ne, effect.writer_of_st_ne, effect.writer_of_fb_ne,
    fun ⟨a, changed⟩ => effect.writer_of_memRead_ne a changed,
    fun changed => (effect.raises_of_fault_ne changed).frame, effect.sampler_of_samples_ne⟩

end Sys2Proof.Machine
end

section
/-! PROOFS. The invariant of every run (10_state.md sections 2, 4 and 10; rules R23, R25, R211): it holds at reset, every
step and every other command keep it, so every sequence of commands does. -/

namespace Sys2Proof.Machine

/-! ## The invariant and what it reads -/

section
variable {s t : State}

/-- The invariant reads memory's form, the configuration, the stack, `pc` and the fault register. -/
theorem Inv.of_eq (inv : Inv s) (canonical : t.memWf = true) (cfg : t.cfg = s.cfg) (stack : t.stack = s.stack)
    (pc : t.pc = s.pc) (fault : t.fault = s.fault) : Inv t where
  mem := canonical
  depth := by rw [State.stackFits, cfg, stack]; exact inv.depth
  pc := by rw [pc]; exact inv.pc
  returns := by rw [stack]; exact inv.returns
  record := by rw [fault, pc]; exact inv.record

theorem stackFits_iff : s.stackFits = true ↔ ∀ d, s.cfg.stackDepth = some d → s.stack.length ≤ d := by
  unfold State.stackFits
  cases s.cfg.stackDepth <;> simp

theorem inv_resetWith (cfg : Params) (samples : Nat) : Inv (State.resetWith cfg samples) where
  mem := Memory.wf_nil
  depth := stackFits_iff.2 fun d _ => Nat.zero_le d
  pc := show (0x200#16).toNat ≤ 0x10FE by decide
  returns := fun _ listed => absurd listed List.not_mem_nil
  record := nofun

/-- Raising at `pc` itself writes the fault register alone, so the record's form is all there is to check. -/
theorem Inv.raiseAt (inv : Inv s) {code : FaultCode} {word : Option Word} {info : Option DataInfo}
    (formed : FaultRecord.wellFormed ⟨code, s.pc, word, info⟩ = true) : Inv (s.raiseAt s.pc code word info) where
  mem := inv.mem
  depth := inv.depth
  pc := inv.pc
  returns := inv.returns
  record := by
    intro r held
    cases held
    exact ⟨formed, rfl⟩

end

/-! ## What an instruction keeps -/

section
variable {s : State} {i : Instr} {t : State}

theorem le_sixteen_of_dataRunLength {n : Nat} (length : dataRunLength i = some n) : n ≤ 16 := by
  cases i with
  | draw | storeBcd | storeRegisters | loadRegisters => cases length; omega
  | _ => cases length

theorem Effect.memWf (effect : Effect s i t) (canonical : s.memWf = true) : t.memWf = true := by
  cases effect with
  | raised cause => obtain ⟨r, rfl⟩ := cause.frame; exact canonical
  | storeBcd | storeRegisters => exact State.writeData_memWf canonical _
  | _ => exact canonical

theorem Effect.stackFits (effect : Effect s i t) (fits : s.stackFits = true) : t.stackFits = true := by
  cases effect with
  | raised cause => obtain ⟨r, rfl⟩ := cause.frame; exact fits
  | call room =>
    refine stackFits_iff.2 fun d depth => ?_
    have notLonger := stackFits_iff.1 fits d depth
    have notFull : d ≠ s.stack.length := fun full => room (full ▸ depth)
    rw [State.setPc_stack, State.push_stack, List.length_append, List.length_singleton]
    omega
  | ret pushed =>
    refine stackFits_iff.2 fun d depth => ?_
    have notLonger := stackFits_iff.1 fits d depth
    rw [pushed, List.length_append] at notLonger
    exact Nat.le_of_add_right_le notLonger
  | _ => exact fits

/-- A call pushes `pc`, and a return leaves addresses that were there. -/
theorem Effect.returns (effect : Effect s i t) (returns : ∀ a ∈ s.stack, a.toNat ≤ 0x1000)
    (advanced : s.pc.toNat ≤ 0x1000) : ∀ a ∈ t.stack, a.toNat ≤ 0x1000 := by
  cases effect with
  | raised cause => obtain ⟨r, rfl⟩ := cause.frame; exact returns
  | call => exact List.forall_mem_append.2 ⟨returns, List.forall_mem_singleton.2 advanced⟩
  | ret pushed =>
    rw [pushed] at returns
    exact (List.forall_mem_append.1 returns).1
  | _ => exact returns

theorem toNat_le_of_allowedTarget {target : Word} (allowed : AllowedTarget s target) (advanced : s.pc.toNat ≤ 0x1000) :
    target.toNat ≤ 0x10FE := by
  rcases allowed with rfl | rfl | bounded
  · omega
  · bv_omega
  · exact bounded

/-- The fetch stage leaves `pc` between 2 and 0x1000, so one more skip and going back both stay in the bound. -/
theorem Effect.pc_le (effect : Effect s i t) (returns : ∀ a ∈ s.stack, a.toNat ≤ 0x1000)
    (fetched : 2 ≤ s.pc.toNat) (advanced : s.pc.toNat ≤ 0x1000) : t.pc.toNat ≤ 0x10FE := by
  have kept : s.pc.toNat ≤ 0x10FE := by omega
  have back : (s.pc - 2).toNat ≤ 0x10FE := by bv_omega
  cases effect with
  | raised cause => obtain ⟨r, rfl⟩ := cause.frame; exact back
  | noKey => exact back
  | flow _ allowed => exact toNat_le_of_allowedTarget allowed advanced
  | call => exact toNat_le_of_allowedTarget (allowedTarget_address _) advanced
  | ret pushed =>
    have target := returns _ (pushed ▸ List.mem_append_right _ (List.mem_singleton_self _))
    exact Nat.le_trans target (by decide)
  | keyPressed | keyNotPressed => exact toNat_le_of_allowedTarget (allowedTarget_skipIf (s := s.sampled) _) advanced
  | _ => exact kept

/-- Each cause leaves a record of the form of rule R211. -/
theorem RaisedBy.wellFormed (cause : RaisedBy s i t) : ∀ r, t.fault = some r → r.wellFormed = true ∧ r.pc = t.pc := by
  intro r held
  cases cause with
  | ret => cases held; exact ⟨rfl, rfl⟩
  | call => cases held; exact ⟨rfl, rfl⟩
  | dataRun length leaves =>
    cases held
    obtain ⟨nonempty, outside, -⟩ := leaves
    have bounded := le_sixteen_of_dataRunLength length
    refine ⟨?_, rfl⟩
    simp [FaultRecord.wellFormed, nonempty, outside, bounded]

theorem Effect.record (effect : Effect s i t) (noFault : s.fault = none) :
    ∀ r, t.fault = some r → r.wellFormed = true ∧ r.pc = t.pc := by
  by_cases changed : t.fault = s.fault
  · rw [changed, noFault]
    exact nofun
  · exact (effect.raises_of_fault_ne changed).wellFormed

/-- An instruction keeps the invariant from the state the fetch stage leaves. -/
theorem Inv.of_effect_advance (inv : Inv s) (noFault : s.fault = none) (inMemory : s.pc.toNat + 1 ≤ 0xFFF)
    (effect : Effect s.advance i t) : Inv t := by
  have pc : s.advance.pc.toNat = s.pc.toNat + 2 := by rw [s.advance_pc]; bv_omega
  exact {
    mem := effect.memWf inv.mem
    depth := effect.stackFits inv.depth
    pc := effect.pc_le inv.returns (by omega) (by omega)
    returns := effect.returns inv.returns (by omega)
    record := effect.record noFault }

end

/-! ## Steps, commands and runs -/

section
variable {s : State}

theorem inv_of_step {t : State} (inv : Inv s) (run : step s = .next t) : Inv t := by
  rcases step_cases run with ⟨-, rfl⟩ | ⟨-, noWord, rfl⟩ | ⟨w, -, -, -, rfl⟩ | ⟨w, i, noFault, fetched, -, ran⟩
  · exact inv
  · have outside := (s.fetch16_eq_none s.pc).1 noWord
    exact inv.raiseAt (decide_eq_true (p := 0xFFF ≤ s.pc.toNat) (by omega))
  · exact inv.raiseAt rfl
  · refine inv.of_effect_advance noFault ?_ (effect_of_exec ran)
    by_contra outside
    have noWord := (s.fetch16_eq_none s.pc).2 (by omega)
    rw [noWord] at fetched
    cases fetched

theorem inv_of_load (inv : Inv s) (image : List Byte) : Inv (s.load image).state := by
  by_cases fits : image.length ≤ 3584
  · rw [s.load_of_fits fits]
    exact inv.of_eq (State.store_memWf inv.mem _ _) rfl rfl rfl rfl
  · rw [s.load_of_tooLarge fits]
    exact inv

theorem exists_command_inv (c : Command) (inv : Inv s) : ∃ q, command c s = .next q ∧ Inv q.state := by
  cases c with
  | reset => exact ⟨_, command_reset s, inv_resetWith s.cfg s.samples⟩
  | load image => exact ⟨_, command_load s image, inv_of_load inv image⟩
  | timerTick => exact ⟨_, command_timerTick s, inv.of_eq inv.mem rfl rfl rfl rfl⟩
  | cpuTick =>
    obtain ⟨t, ticked⟩ := exists_step_eq_next s
    exact ⟨_, command_cpuTick ticked, by rw [t.report_state]; exact inv_of_step inv ticked⟩

theorem runCommands_cons {c : Command} {q : Reply} (run : command c s = .next q) (cs : List Command) :
    runCommands (c :: cs) s = runCommands cs q.state := by
  simp only [runCommands, run]

end

/-! ## The obligations -/

/-- Settles O49: both resets are `State.resetWith` of a configuration. -/
theorem invariantHoldsAtReset : Obligations.InvariantHoldsAtReset :=
  ⟨inv_resetWith thisHardware 0, fun s => inv_resetWith s.cfg s.samples⟩

/-- Settles O50: the stages of a tick by `step_cases`, and the execute stage by the effects of its instruction. -/
theorem invariantKeptByEveryStep : Obligations.InvariantKeptByEveryStep := by
  intro s t
  exact inv_of_step

/-- Settles O51: by induction on the commands, each of which completes and keeps the invariant. -/
theorem invariantKeptByEveryRun : Obligations.InvariantKeptByEveryRun := by
  intro cs
  induction cs with
  | nil => exact fun s inv => ⟨s, rfl, inv⟩
  | cons c cs ih =>
    intro s inv
    obtain ⟨q, run, kept⟩ := exists_command_inv c inv
    rw [runCommands_cons run]
    exact ih q.state kept

end Sys2Proof.Machine
end

section
/-! PROOFS. Single instructions: a return after its call (rules R102, R103), the second wording of the flags (rule R130), the
sampled inputs (rules R35 to R38), the addresses of a data run (rule R53) and the sprite drawn twice (rule R191). -/

namespace Sys2Proof.Machine

/-! ## Flags in their second wording (41_register_alu.md section 1) -/

section
variable (a b : Byte)

theorem flagByte_eq_one_iff (flag : Bool) : flagByte flag = 1#8 ↔ flag = true := by
  cases flag <;> decide

theorem flagByte_eq_one_or_zero (flag : Bool) : flagByte flag = 1#8 ∨ flagByte flag = 0#8 := by
  cases flag <;> decide

/-- A byte sum wraps exactly when it falls below its first operand. -/
theorem carryFlag_iff_sum_lt : carryFlag a b = true ↔ (a + b).toNat < a.toNat := by
  rw [carryFlag_iff, BitVec.toNat_add]
  omega

/-- A byte difference borrows exactly when it rises above its minuend. -/
theorem notBorrowFlag_iff_difference_le : notBorrowFlag a b = true ↔ (a - b).toNat ≤ a.toNat := by
  rw [notBorrowFlag_iff, toNat_sub_byte]
  omega

end

/-- Where the result is not in `VF`, a wording of the flag in terms of the result can be read off the registers. -/
theorem OnlyWritesWithFlag.flag_iff {s t : State} {x : Nibble} {b : Byte} {flag : Bool} {wording : Byte → Prop}
    (written : OnlyWritesWithFlag s t x b flag) (notFlag : x ≠ 0xF#4) (same : flag = true ↔ wording b) :
    (t.readV 0xF#4 = 1#8 ↔ wording (t.readV x)) ∧ (t.readV 0xF#4 = 1#8 ∨ t.readV 0xF#4 = 0#8) := by
  rw [written.value notFlag, written.flagged notFlag, ← flagByte_eq]
  exact ⟨(flagByte_eq_one_iff flag).trans same, flagByte_eq_one_or_zero flag⟩

/-! ## What each instruction that samples does -/

section
variable (x : Nibble) (kk : Byte) (s : State)

theorem exec_random : exec (.random x kk) s = .next (randomWith (Config.rndByte s.samples) x kk s.sampled) := rfl

theorem exec_skipKeyPressed : exec (.skipKeyPressed x) s =
    .next (skipKeyPressedWith (Config.keyDown s.samples (s.keyIndex x)) s.sampled) := rfl

theorem exec_skipKeyNotPressed : exec (.skipKeyNotPressed x) s =
    .next (skipKeyNotPressedWith (Config.keyDown s.samples (s.keyIndex x)) s.sampled) := rfl

theorem exec_waitKey : exec (.waitKey x) s = .next (waitKeyWith (Config.keyEvent s.samples) x s.sampled) := rfl

theorem toNat_keyIndex : (s.keyIndex x).toNat = (s.readV x).toNat % 16 := by
  rw [State.keyIndex, BitVec.extractLsb'_toNat, Nat.shiftRight_zero]

theorem skipKeyPressedWith_eq (held : Bool) :
    skipKeyPressedWith held s = { s with pc := if held then s.pc + 2 else s.pc } := rfl

theorem skipKeyNotPressedWith_eq (held : Bool) :
    skipKeyNotPressedWith held s = { s with pc := if held then s.pc else s.pc + 2 } := by
  cases held <;> rfl

end

/-! ## The addresses of a data run (rule R53) -/

section
variable (s : State)

theorem State.toNat_dataAddr (k : Nat) : (s.dataAddr k).toNat = (s.i.toNat + k) % 4096 := by
  rw [State.dataAddr, BitVec.toNat_add, BitVec.toNat_ofNat, Nat.add_mod_mod]

theorem State.toNat_dataAddr_of_le {k : Nat} (inMemory : s.i.toNat + k ≤ 0xFFF) :
    (s.dataAddr k).toNat = s.i.toNat + k := by
  rw [State.toNat_dataAddr, Nat.mod_eq_of_lt (by omega)]

/-- A run that stays inside memory raises under neither value of `MEM_OOB`. -/
theorem not_runLeavesMemory {n : Nat} (inMemory : s.i.toNat + n - 1 ≤ 0xFFF) : ¬RunLeavesMemory s n :=
  fun ⟨_, outside, _⟩ => by omega

/-- `V[k]` goes to `I + k`, where the block is inside memory. -/
theorem State.byteAt_storeBlock (canonical : s.memWf = true) {x k : Nibble} (listed : k.toNat ≤ x.toNat)
    (inMemory : s.i.toNat + k.toNat ≤ 0xFFF) :
    (s.writeData (s.firstRegs (x.toNat + 1))).byteAt (s.i.toNat + k.toNat) = s.readV k := by
  rw [← s.memRead_storeBlock x canonical listed, State.memRead, s.toNat_dataAddr_of_le inMemory]

end

/-! ## A sprite drawn twice (44_display.md) -/

/-- Drawing the same rows twice inverts every lit pixel of the grid twice; outside it there is no pixel. -/
theorem drawRows_drawRows (x0 row : Nat) (bs : List Byte) (fb : Framebuffer) (hit hit' : Bool) :
    (drawRows x0 row bs ((drawRows x0 row bs (fb, hit)).1, hit')).1 = fb := by
  apply framebuffer_ext
  intro r c
  by_cases inGrid : r < 32 ∧ c < 64
  · obtain ⟨hr, hc⟩ := inGrid
    rw [getPixel_drawRows _ _ _ _ hr hc, getPixel_drawRows _ _ _ _ hr hc, Bool.xor_assoc, Bool.xor_self,
      Bool.xor_false]
  · rw [getPixel_outside _ inGrid, getPixel_outside _ inGrid]

theorem readData_congr {s u : State} (i : u.i = s.i) (mem : u.mem = s.mem) (cfg : u.cfg = s.cfg) (n : Nat) :
    u.readData n = s.readData n := by
  simp only [State.readData, State.dataAddr, i, mem, cfg]

/-! ## The obligations -/

/-- Settles O14: with no fault the call pushed `pc`, which is then the last address on the stack. -/
theorem returnUndoesCall : Obligations.ReturnUndoesCall := by
  intro nnn s t u run noFault kept
  by_cases full : s.cfg.stackDepth = some s.stack.length
  · cases (exec_call_of_full nnn full).symm.trans run
    cases noFault
  · cases (exec_call_of_room nnn full).symm.trans run
    exact ⟨_, exec_ret_of_stack_eq_append kept, rfl⟩

/-- Settles O24: the flag and the result are read off the registers, where the two wordings are arithmetic on bytes. -/
theorem flagsAgreeWithTheSecondWording : Obligations.FlagsAgreeWithTheSecondWording := by
  intro x y s t notFlag
  constructor
  · intro run
    cases (exec_add x y s).symm.trans run
    exact (s.writeWithFlag_onlyWrites x _ _).flag_iff (wording := fun b => b.toNat < (s.readV x).toNat) notFlag
      (carryFlag_iff_sum_lt _ _)
  · intro run
    cases (exec_sub x y s).symm.trans run
    exact (s.writeWithFlag_onlyWrites x _ _).flag_iff (wording := fun b => b.toNat ≤ (s.readV x).toNat) notFlag
      (notBorrowFlag_iff_difference_le _ _)

/-- Settles O25: one sampling, and the write of `V[x]` for every byte it may give. -/
theorem randomMasksAnyDraw : Obligations.RandomMasksAnyDraw := by
  intro x kk s
  exact ⟨exec_random x kk s, fun r => s.writeV_onlyWritesV x (r &&& kk)⟩

/-- Settles O26: the 12-bit sum is the sum modulo 4096, and the sum itself while it is inside memory. -/
theorem dataAddressIsIndexPlusOffset : Obligations.DataAddressIsIndexPlusOffset := by
  intro s n k inRun _
  exact ⟨s.dataRunRaises_iff n, fun inMemory => s.toNat_dataAddr_of_le (by omega), s.toNat_dataAddr k⟩

/-- Settles O33: `V[0]` and `V[1]` are stored at `pc` and `pc + 1`, which are the first two addresses of the run. -/
theorem storeIsSeenByTheNextFetch : Obligations.StoreIsSeenByTheNextFetch := by
  intro x s canonical atPc twoBytes inMemory
  have pc : s.pc.toNat = s.i.toNat := by rw [← atPc, BitVec.toNat_setWidth_of_le (by decide)]
  have ran := exec_storeRegisters_of_stays (not_runLeavesMemory s (n := x.toNat + 1) (by omega))
  obtain ⟨w, fetched, word⟩ := (s.writeData (s.firstRegs (x.toNat + 1))).exists_fetch16_bigEndian (a := s.pc) (by omega)
  refine ⟨_, w, ran, fetched, ?_⟩
  have first := s.byteAt_storeBlock canonical (k := 0x0#4) (Nat.zero_le x.toNat) (show s.i.toNat + 0 ≤ 0xFFF by omega)
  have second := s.byteAt_storeBlock canonical (k := 0x1#4) twoBytes (show s.i.toNat + 1 ≤ 0xFFF by omega)
  rw [word, pc, ← first, ← second]
  rfl

/-- Settles O35: the key index is the low nibble of `V[x]`, and both are the one skip, on opposite answers. -/
theorem keySkipsFollowTheSampledKey : Obligations.KeySkipsFollowTheSampledKey := by
  intro x key s lowNibble
  have index : s.keyIndex x = key := BitVec.eq_of_toNat_eq ((toNat_keyIndex x s).trans lowNibble.symm)
  rw [exec_skipKeyPressed, exec_skipKeyNotPressed, index, skipKeyPressedWith_eq, skipKeyNotPressedWith_eq]
  exact ⟨rfl, rfl, fun held => ⟨skipKeyPressedWith_eq s held, skipKeyNotPressedWith_eq s held⟩⟩

/-- Settles O36: a key is one register write, and without one `pc` is `ipc` again. -/
theorem waitKeyRetriesUntilAKey : Obligations.WaitKeyRetriesUntilAKey := by
  intro x s
  refine ⟨exec_waitKey x s, rfl, fun k => ?_⟩
  exact ⟨k.setWidth 8, BitVec.toNat_setWidth_of_le (by decide), s.writeV_onlyWritesV x _⟩

/-- Settles O41: the second draw reads the same sprite at the same place, on the framebuffer the first one left. -/
theorem drawingTwiceRestoresTheDisplay : Obligations.DrawingTwiceRestoresTheDisplay := by
  intro x y n s t u run stays fb i mem cfg sameX sameY
  cases (exec_draw_of_stays x y stays).symm.trans run
  have stays' : ¬RunLeavesMemory u n.toNat := by rwa [RunLeavesMemory, i, cfg]
  have bytes := readData_congr i mem cfg n.toNat
  refine ⟨_, exec_draw_of_stays x y stays', ?_, ?_⟩
  · simp only [State.drawSprite, sameX, sameY, bytes, fb]
    exact drawRows_drawRows _ _ _ _ _ _
  · rintro clear ⟨r, c, hr, hc, lit⟩
    have lit' : SpriteLit u x y n r c := by
      rw [← rowsLit_readData_iff] at lit ⊢
      rwa [sameX, sameY, bytes]
    have set : getPixel u.fb r c = true := by
      rw [fb, (getPixel_drawSprite_iff x y n s hr hc).2 lit, clear, Bool.not_false]
    have collided := (collided_drawSprite_iff x y n u).2 ⟨r, c, lit', set⟩
    rw [collided]
    exact u.readV_writeV_self vf _

end Sys2Proof.Machine
end

section
/-! PROOFS. The fixed loop and the fault stop of 70_reset_and_hazards.md section 5 (rule R250), and the host's placing of a
word where the next step fetches it (30_encoding.md section 5). -/

namespace Sys2Proof.Machine

/-! ## States that a step leaves as they are -/

section
variable {s : State}

theorem run_of_step_eq_self (stays : step s = .next s) (k : Nat) : Sys2Proof.core.run k s = .next s := by
  induction k with
  | zero => rfl
  | succ k ih =>
    have first : Sys2Proof.core.step s = .next s := stays
    simp only [Host.Core.run, first, ih]

theorem step_of_atFixedLoop (loop : atFixedLoop s) : step s = .next s := by
  obtain ⟨noFault, nnn, fetched, self⟩ := loop
  rw [step_of_decode_eq_some noFault fetched (decode_encode (.jump nnn) rfl), exec_jump, self]
  rfl

theorem step_of_atFaultStop (stopped : atFaultStop s) : step s = .next s := by
  obtain ⟨r, held⟩ := Option.ne_none_iff_exists'.1 stopped
  exact step_of_fault_eq_some held

end

/-! ## A placed word -/

/-- An encoded word stands in the opcode table's form as its own two bytes. -/
theorem tableBytes_encode (i : Instr) : tableBytes 16 (encode i).toNat = [highByte (encode i), lowByte (encode i)] := by
  have word : BitVec.ofNat 16 ((encode i).toNat % 2 ^ 16) = encode i := by
    rw [Nat.mod_eq_of_lt (encode i).isLt, BitVec.ofNat_toNat, BitVec.setWidth_eq]
  rw [tableBytes, word]

section
variable (s : State) {a : Word}

theorem State.fetchAddress_of_le (inside : s.pc.toNat + 1 ≤ 0xFFF) : s.fetchAddress = s.pc :=
  if_neg (Nat.not_lt.2 inside)

theorem State.fetchAddress_of_lt (outside : 0xFFF < s.pc.toNat + 1) : s.fetchAddress = 0x200#16 := if_pos outside

/-- A word can be fetched from the fetch address, whatever `pc` is. -/
theorem State.fetchAddress_le : s.fetchAddress.toNat + 1 ≤ 0xFFF := by
  by_cases inside : s.pc.toNat + 1 ≤ 0xFFF
  · rwa [s.fetchAddress_of_le inside]
  · rw [s.fetchAddress_of_lt (Nat.not_le.1 inside)]
    decide

theorem State.byteAt_eq_memRead {k : Nat} (inMemory : k ≤ 0xFFF) : s.byteAt k = s.memRead (BitVec.ofNat 12 k) := by
  rw [State.memRead, BitVec.toNat_ofNat, Nat.mod_eq_of_lt (by omega)]

/-- From an address inside memory, a higher one lies at their difference, and a lower one around the end of memory. -/
theorem addrOffset_setWidth {k : Nat} (start : a.toNat ≤ 0xFFF) (inMemory : k ≤ 0xFFF) :
    addrOffset (a.setWidth 12) (BitVec.ofNat 12 k) = if a.toNat ≤ k then k - a.toNat else k + 4096 - a.toNat := by
  unfold addrOffset
  split <;> bv_omega

/-- Everything that storing two bytes does to memory, when both are inside it. -/
theorem State.byteAt_store_pair {s : State} (canonical : s.memWf = true) (fits : a.toNat + 1 ≤ 0xFFF) (hi lo : Byte)
    {k : Nat} (inMemory : k ≤ 0xFFF) :
    (s.store (a.setWidth 12) [hi, lo]).byteAt k =
      if k = a.toNat then hi else if k = a.toNat + 1 then lo else s.byteAt k := by
  have length : [hi, lo].length = 2 := rfl
  rw [State.byteAt_eq_memRead _ inMemory, State.memRead_store canonical _ _ (by omega), length,
    addrOffset_setWidth (by omega) inMemory, ← State.byteAt_eq_memRead _ inMemory]
  rcases Nat.lt_trichotomy k a.toNat with below | rfl | above
  · rw [if_neg (Nat.not_le.2 below), if_neg (by omega), if_neg (by omega), if_neg (by omega)]
  · simp
  · rw [if_pos above.le, if_neg above.ne']
    by_cases second : k = a.toNat + 1
    · simp [second]
    · rw [if_neg (by omega), if_neg second]

/-- Everything that placing an instruction's word does to memory. -/
theorem State.byteAt_withFetchWord {s : State} (canonical : s.memWf = true) (i : Instr) {k : Nat}
    (inMemory : k ≤ 0xFFF) :
    (s.withFetchWord 16 (encode i).toNat).byteAt k =
      if k = s.fetchAddress.toNat then highByte (encode i)
      else if k = s.fetchAddress.toNat + 1 then lowByte (encode i) else s.byteAt k := by
  rw [← State.byteAt_store_pair canonical s.fetchAddress_le _ _ inMemory, ← tableBytes_encode]
  rfl

end

/-! ## The obligations -/

/-- Settles O52: in both a step leaves the state as it is, and so does every number of steps. -/
theorem fixedLoopAndFaultStopStay : Obligations.FixedLoopAndFaultStopStay := by
  rintro s k (loop | stopped)
  · exact run_of_step_eq_self (step_of_atFixedLoop loop) k
  · exact run_of_step_eq_self (step_of_atFaultStop stopped) k

/-- Settles O53: the two bytes stored at the fetch address are the only ones that change, and the fetch there reads them
as the word, which decodes to its instruction. -/
theorem placedWordIsRunNext : Obligations.PlacedWordIsRunNext := by
  intro s i canonical wf
  have inMemory := s.fetchAddress_le
  have high : (s.withFetchWord 16 (encode i).toNat).byteAt s.fetchAddress.toNat = highByte (encode i) := by
    rw [State.byteAt_withFetchWord canonical i (by omega), if_pos rfl]
  have low : (s.withFetchWord 16 (encode i).toNat).byteAt (s.fetchAddress.toNat + 1) = lowByte (encode i) := by
    rw [State.byteAt_withFetchWord canonical i inMemory, if_neg (by omega), if_pos rfl]
  have fetched : (s.withFetchWord 16 (encode i).toNat).fetch16 s.fetchAddress = some (encode i) := by
    rw [State.fetch16_of_le _ inMemory, high, low, wordOfBytes_bytes]
  refine ⟨_, rfl, rfl, s.fetchAddress_of_le, s.fetchAddress_of_lt, State.placeWord_memWf canonical 16 _, high, low,
    ?_, step_of_decode_eq_some rfl fetched (decode_encode i wf)⟩
  intro b notFirst notSecond
  rw [State.memRead, State.byteAt_withFetchWord canonical i (by omega), if_neg notFirst, if_neg notSecond]
  rfl

end Sys2Proof.Machine
end
